-- ==== Sys2Proof/Word.lean ====
section
/-! DEFINITION. The bit-vector widths of the block (00_scope.md R6, R7, R9): every value is unsigned. -/

namespace Sys2Proof

/-- One byte: a frame, message or key byte, or the IMM8 operand (R82). -/
abbrev Byte := BitVec 8

/-- Sixteen bits: the CRC and the two trailer registers (R6, `CRC_WIDTH`). -/
abbrev Half := BitVec 16

/-- The 32-bit host data path (R7): a command word or a register of the window. -/
abbrev Word := BitVec 32

/-- The 128-bit buses of the cipher port (R191). -/
abbrev Port128 := BitVec 128

/-- Sixteen bytes, byte 0 first: the document's `bytes[16]` (R6, `BLOCK_BYTES` and `KEY_BYTES`). -/
abbrev Block := Vector Byte 16

/-- A byte offset from 0x00 to 0x3F within the register window (R50). -/
abbrev Offset := BitVec 6

/-- Sixteen zero bytes: the reset value of KEY, IBUF and OBUF (R21, R22, R26). -/
def Block.zero : Block := Vector.replicate 16 0

end Sys2Proof
end

