-- ==== Sys2Proof/Config.lean ====
section
/-! DEFINITION. What is fixed for one block and is not state (10_state.md R40): the constants of 00_scope.md R6 and the
parameters that R8 leaves open. The open ones are uninterpreted: nothing in Lean can evaluate them. -/

namespace Sys2Proof

/-- `CRC_POLY` (R6, R140): reflected form. -/
def Config.crcPoly : Half := 0xA001

/-- `CRC_SEED` (R6, R140). -/
def Config.crcSeed : Half := 0xFFFF

/-- `BLOCK_BYTES` (R6). -/
def Config.blockBytes : Nat := 16

/-- `VER_PREFIX` (R6): the CRC covers message bytes [0,14). -/
def Config.verPrefix : Nat := 14

/-- `VER_MIN_LEN` (R6): the trailer is bytes [14,16). -/
def Config.verMinLen : Nat := 16

/-- The external cipher (R13, I1; log entry 7): under each key, an uninterpreted permutation of the 16-byte blocks, whose
forward direction is `ENCRYPT_BLOCK`. DEDUCED: R13's round trip on a finite set makes encryption a permutation. -/
opaque Config.cipher : Block → Equiv.Perm Block

/-- `ENCRYPT_BLOCK(key, blk)` of R13: only claims about the cipher name it. -/
def Config.encryptBlock (key blk : Block) : Block := Config.cipher key blk

/-- `DECRYPT_BLOCK(key, blk)` of R13: the value a successful cipher response carries. -/
def Config.decryptBlock (key blk : Block) : Block := (Config.cipher key).symm blk

/-- R13's one stated property of the cipher. -/
theorem Config.decryptBlock_encryptBlock (key blk : Block) :
    Config.decryptBlock key (Config.encryptBlock key blk) = blk :=
  (Config.cipher key).symm_apply_apply blk

/-- `CIPHER_MAY_FAIL` (R8, R14, I2; log entry 15): uninterpreted, so a claim holds whether or not the port can fail. -/
opaque Config.cipherMayFail : Bool

/-- `BASE` divided by 4: R8 leaves `BASE` open, 4-byte aligned at least (log entry 11). -/
opaque Config.baseWord : Nat

/-- `BASE` (R8, I11): the host-bus address of the register window. -/
def Config.base : Nat := 4 * Config.baseWord

end Sys2Proof
end

