-- ==== Sys2Proof/Machine/Bus.lean ====
section
/-! DEFINITION. What the agents outside the block can do: the host's accesses to the register window (20_memory.md R50 to
R60, 30_encoding.md R90) and the moves of the host, the cipher agent and the environment (10_state.md R20,
70_reset_and_hazards.md R210). -/

namespace Sys2Proof.Machine

/-- The width of a host access (R54): the block answers 32-bit accesses only. -/
inductive AccessSize where
  | byte | half | word
  deriving DecidableEq, Repr

/-- Where a host access goes on the bus: offset `off` of the window at `BASE` (R50), or a place the block does not decode
(R60). -/
inductive Target where
  | window (off : Offset)
  | outside (addr : Nat)
  deriving DecidableEq, Repr

/-- The registers of the window (R42). -/
inductive Reg where
  | cmd | status | crc | vresult | dcount | err
  | unmapped
  | key (n : Fin 4)
  | out (n : Fin 4)
  deriving DecidableEq, Repr

/-- One statement of a host program (R90): `MemRead`, `MemWrite`, or `POLL REG, mask, v`. -/
inductive HostOp where
  | read (t : Target) (size : AccessSize)
  | write (t : Target) (size : AccessSize) (v : Word)
  | poll (off : Offset) (mask v : Word)
  deriving DecidableEq, Repr

/-- One move of an agent in the total order of steps (R20, R62, R210). -/
inductive Move where
  | host        -- the host's next access (R51, R52)
  | cipherOk    -- a successful cipher response (R114)
  | cipherErr   -- a failing cipher response (R115)
  | reset       -- the reset input (R210)
  deriving DecidableEq, Repr

/-- Address decoding on the host bus (R50, R60): `[base, base + 0x40)` is the window. DESIGN CHOICE (log entry 23): an access is
decoded by the address it starts at, so one that starts at `base - 3` to `base - 1` and reaches into the window is outside it; the
spec does not say whether R54 or R60 applies there. -/
def Target.ofAddr (base addr : Nat) : Target :=
  if base ≤ addr ∧ addr < base + 64 then .window (BitVec.ofNat 6 (addr - base)) else .outside addr

/-- `MemRead(addr, 4)` for a host-bus address (R10), with the open parameter `BASE`. -/
def HostOp.memRead (addr : Nat) : HostOp := .read (Target.ofAddr Config.base addr) .word

/-- `MemWrite(addr, 4, v)` for a host-bus address (R10), with the open parameter `BASE`. -/
def HostOp.memWrite (addr : Nat) (v : Word) : HostOp := .write (Target.ofAddr Config.base addr) .word v

/-- The register map of R42: the offset of each register (of the unmapped pair, the first). -/
def Reg.offset : Reg → Offset
  | .cmd => 0x00
  | .status => 0x04
  | .crc => 0x08
  | .vresult => 0x0C
  | .dcount => 0x10
  | .err => 0x14
  | .unmapped => 0x18
  | .key n => 0x20 + 4 * BitVec.ofNat 6 n.val
  | .out n => 0x30 + 4 * BitVec.ofNat 6 n.val

/-- The register map of R42 read the other way: the register an aligned offset names. -/
def Reg.atOffset (off : Offset) : Reg :=
  match off.toNat with
  | 0x00 => .cmd
  | 0x04 => .status
  | 0x08 => .crc
  | 0x0C => .vresult
  | 0x10 => .dcount
  | 0x14 => .err
  | 0x20 => .key 0
  | 0x24 => .key 1
  | 0x28 => .key 2
  | 0x2C => .key 3
  | 0x30 => .out 0
  | 0x34 => .out 1
  | 0x38 => .out 2
  | 0x3C => .out 3
  | _ => .unmapped

/-- A 32-bit access at a multiple of 4: the only one the block answers (R54). -/
def answers (off : Offset) (size : AccessSize) : Bool :=
  size == .word && off.extractLsb' 0 2 == 0

end Sys2Proof.Machine
end

