-- ==== Sys2Proof/Machine/State.lean ====
section
/-! DEFINITION. The state of the block, 10_state.md R20 to R37, grouped as its sections 2, 3 and 4 group it, and beside it
what the agents outside the block are about to do. Plain data throughout. -/

namespace Sys2Proof.Machine

/-- The request latched for the cipher port (R25). -/
structure Request where
  blk : Block
  key : Block
  deriving DecidableEq, Repr

/-- The decrypt engine's state (10_state.md section 2). -/
structure Decryptor where
  key : Block              -- KEY (R21)
  ibuf : Block             -- IBUF (R22)
  ifill : BitVec 4         -- IFILL (R23)
  busy : Bool              -- BUSY (R24)
  req : Option Request     -- REQ (R25)
  obuf : Block             -- OBUF (R26)
  ovalid : Bool            -- OVALID (R27)
  dactive : Bool           -- DACTIVE (R28)
  blkcnt : BitVec 16       -- BLKCNT (R29)
  drop : BitVec 4          -- DROP (R30)
  deriving DecidableEq, Repr

/-- The checksum engine's state (10_state.md section 3). -/
structure Checker where
  crc : Half               -- CRC (R31)
  vactive : Bool           -- VACTIVE (R32)
  vcount : BitVec 5        -- VCOUNT (R33)
  act : Half               -- ACT (R34)
  exp : Half               -- EXP (R35)
  vdone : Bool             -- VDONE (R36)
  vok : Bool               -- VOK (R36)
  vshort : Bool            -- VSHORT (R36)
  deriving DecidableEq, Repr

/-- The error record (10_state.md section 4, R37). -/
structure ErrRecord where
  code : BitVec 4          -- ERRCODE
  opc : Byte               -- ERROPC
  multi : Bool             -- ERRMULTI
  deriving DecidableEq, Repr

/-- The block (`dec`, `chk`, `err`: exactly R21 to R37), and the model's own record of the agents around it (log entries
1 to 3): the host's remaining statements, the order in which the agents move, and what the host has read, oldest first. -/
structure State where
  dec : Decryptor
  chk : Checker
  err : ErrRecord
  program : List HostOp
  sched : List Move
  reads : List (Offset × Word)
  deriving DecidableEq, Repr

/-- Why a step stops as a fault. -/
inductive Fault where
  /-- Raised by a cipher response in a state with BUSY = 1 and REQ = none, which no run reaches (R25: REQ is meaningful while
  BUSY = 1; log entry 8). Safe: the model stops where the spec describes no state. -/
  | requestMissing
  deriving DecidableEq, Repr

/-- Why a step is refused. -/
inductive Refusal where
  /-- Raised by an arm of `exec` that has no meaning yet. Safe: nothing can be proved about the instruction. -/
  | notModelled (mnemonic : String)
  /-- Raised by an 8-bit, 16-bit or misaligned host access in the window (R54: "refused and not modelled"; log entry 9).
  Safe: R54 gives such an access no step. -/
  | accessNotAnswered
  deriving DecidableEq, Repr

/-- The decrypt engine after reset (R21 to R30, R211). -/
def Decryptor.reset : Decryptor where
  key := Block.zero
  ibuf := Block.zero
  ifill := 0
  busy := false
  req := none
  obuf := Block.zero
  ovalid := false
  dactive := false
  blkcnt := 0
  drop := 0

/-- The checksum engine after reset (R31 to R36, R211): CRC holds the seed. -/
def Checker.reset : Checker where
  crc := 0xFFFF
  vactive := false
  vcount := 0
  act := 0
  exp := 0
  vdone := false
  vok := false
  vshort := false

/-- The error record after reset (R37, R211), which is also what ERR.CLR leaves (R102). -/
def ErrRecord.clear : ErrRecord where
  code := 0
  opc := 0
  multi := false

/-- The machine right after reset (R211, R212, R214). No program is loaded and no move is scheduled (log entry 14). -/
def State.reset : State where
  dec := Decryptor.reset
  chk := Checker.reset
  err := ErrRecord.clear
  program := []
  sched := []
  reads := []

end Sys2Proof.Machine
end

