-- ==== Sys2Proof/Machine/Operands.lean ====
section
/-! DEFINITION. The operand forms of the block: the byte operand (30_encoding.md R82), and the little-endian packing of byte
arrays into registers (20_memory.md R53) and onto the cipher port (60_exceptions.md R191). -/

namespace Sys2Proof.Machine

/-- `zext_16(b)`: how the CRC update widens the byte operand (R82, R141). -/
def zext16 (b : Byte) : Half := b.setWidth 16

/-- `zext_32(c)`: how the CRC register reads (R45, R51). -/
def zext32 (c : Half) : Word := c.setWidth 32

/-- The low byte `c[7:0]`. -/
def lowByte (c : Half) : Byte := c.extractLsb' 0 8

/-- The high byte `c[15:8]`. -/
def highByte (c : Half) : Byte := c.extractLsb' 8 8

/-- `{hi, lo}`: a little-endian 16-bit value from its two bytes (R53, R160). -/
def half (lo hi : Byte) : Half := hi ++ lo

/-- `{b3, b2, b1, b0}`: four bytes packed little-endian (R51, R53). -/
def packLE (b0 b1 b2 b3 : Byte) : Word := b3 ++ (b2 ++ (b1 ++ b0))

/-- `v[8k+7:8k]`: byte `k` of a register value (R53, R57). -/
def byteOf (v : Word) (k : Nat) : Byte := v.extractLsb' (8 * k) 8

/-- Register word `n` of a byte array: `{a[4n+3], a[4n+2], a[4n+1], a[4n]}` (R49, R51). -/
def blockWord (a : Block) (n : Fin 4) : Word :=
  packLE a[4 * n.val] a[4 * n.val + 1] a[4 * n.val + 2] a[4 * n.val + 3]

/-- Bytes `4n` to `4n+3` of a byte array replaced by the bytes of `v` (R57). -/
def setBlockWord (a : Block) (n : Fin 4) (v : Word) : Block :=
  (((a.set (4 * n.val) (byteOf v 0)).set (4 * n.val + 1) (byteOf v 1)).set (4 * n.val + 2) (byteOf v 2)).set
    (4 * n.val + 3) (byteOf v 3)

/-- A byte array on a 128-bit port: byte `i` at bits `[8i+7:8i]` (R113, R191). -/
def portBits (a : Block) : Port128 :=
  blockWord a 3 ++ (blockWord a 2 ++ (blockWord a 1 ++ blockWord a 0))

/-- `IBUF[IFILL] <- b` (R112): IFILL is 4 bits, so it always names a byte. -/
def storeAt (a : Block) (i : BitVec 4) (b : Byte) : Block := a.set i.toNat b i.isLt

end Sys2Proof.Machine
end

