-- ==== Sys2Proof/Machine/Flags.lean ====
section
/-! DEFINITION. The register images the host reads, 10_state.md R44 to R48 and 20_memory.md R51: the flags of STATUS are the
block's only flags, and the other images hold its counters, results and error record. -/

namespace Sys2Proof.Machine

/-- STATUS.ERR: 1 iff `ERRCODE != 0` (R44). -/
def errFlag (e : ErrRecord) : Bool := e.code != 0

/-- STATUS, offset 0x04 (R44, R51). -/
def statusWord (d : Decryptor) (c : Checker) (e : ErrRecord) : Word :=
  0#15 ++ (c.vcount ++ (d.ifill ++ (BitVec.ofBool (errFlag e) ++ (BitVec.ofBool c.vshort ++ (BitVec.ofBool c.vok ++
    (BitVec.ofBool c.vdone ++ (BitVec.ofBool c.vactive ++ (BitVec.ofBool d.dactive ++ (BitVec.ofBool d.ovalid ++
      BitVec.ofBool d.busy)))))))))

/-- CRC, offset 0x08 (R45, R51). -/
def crcWord (c : Checker) : Word := zext32 c.crc

/-- VRESULT, offset 0x0C (R46, R51): expected in the low half, actual in the high half. -/
def vresultWord (c : Checker) : Word := c.act ++ c.exp

/-- DCOUNT, offset 0x10 (R47, R51). -/
def dcountWord (d : Decryptor) : Word := 0#12 ++ (d.drop ++ d.blkcnt)

/-- ERR, offset 0x14 (R48, R51). -/
def errWord (e : ErrRecord) : Word :=
  BitVec.ofBool e.multi ++ (0#15 ++ (e.opc ++ (0#4 ++ e.code)))

/-- The verify result bits VER.END writes, as (VSHORT, VOK) (R163). -/
def verifyFlags (c : Checker) : Bool × Bool :=
  if c.vcount.toNat < Config.verMinLen then (true, false) else (false, c.crc == c.act)

end Sys2Proof.Machine
end

