-- ==== Sys2Proof/Machine/Ops.lean ====
section
/-! DEFINITION. The operations the commands and the agents share: recording an error (60_exceptions.md R181, R182), which is
what this block has in place of taking an exception (R180, R187), clearing the record, which is its return (R188), issuing a
cipher request (41_decrypt.md R113), reading and writing the window's registers (20_memory.md R51, R57), and reset
(70_reset_and_hazards.md R211). -/

namespace Sys2Proof.Machine

/-- The error codes that are produced (R181). Codes 7 to 15 are reserved, never produced. -/
inductive ErrCode where
  | illegal | phase | busy | overrun | keylock | cipher
  deriving DecidableEq, Repr

/-- `ERR[3:0]` of each code (R181). -/
def ErrCode.bits : ErrCode → BitVec 4
  | .illegal => 1
  | .phase => 2
  | .busy => 3
  | .overrun => 4
  | .keylock => 5
  | .cipher => 6

/-- `RecordError(code, opc)` on the record (R182): the first error is kept, a later one sets ERRMULTI. -/
def ErrRecord.record (e : ErrRecord) (code : ErrCode) (opc : Byte) : ErrRecord :=
  if e.code = 0 then { e with code := code.bits, opc := opc } else { e with multi := true }

/-- `RecordError(code, opc)` (R182). -/
def recordError (code : ErrCode) (opc : Byte) (s : State) : State :=
  { s with err := s.err.record code opc }

/-- `raise Error(code)` (R10, R100): the error is recorded and the command has no other effect. -/
def raise (code : ErrCode) (opc : Byte) (s : State) : Host.Outcome State Fault Refusal :=
  .next (recordError code opc s)

/-- The error record cleared: the return from an error (R102, R188). -/
def clearError (s : State) : State := { s with err := ErrRecord.clear }

/-- `CipherIssue(blk, key)` (R113): the request is a snapshot, and BUSY is set. -/
def cipherIssue (blk key : Block) (d : Decryptor) : Decryptor :=
  { d with req := some { blk := blk, key := key }, busy := true }

/-- `ReadReg` of R51, over the register an offset names. -/
def readReg (r : Reg) (s : State) : Word :=
  match r with
  | .cmd => 0
  | .status => statusWord s.dec s.chk s.err
  | .crc => crcWord s.chk
  | .vresult => vresultWord s.chk
  | .dcount => dcountWord s.dec
  | .err => errWord s.err
  | .unmapped => 0
  | .key n => blockWord s.dec.key n
  | .out n => blockWord s.dec.obuf n

/-- `ReadReg(off)` (R51). -/
def readOffset (off : Offset) (s : State) : Word := readReg (Reg.atOffset off) s

/-- `KeyWrite(n, v)` (R57): refused with KEYLOCK, code 5 and ERROPC 0x00, while a frame is open. -/
def keyWrite (n : Fin 4) (v : Word) (s : State) : State :=
  if s.dec.dactive then recordError .keylock 0x00 s
  else { s with dec := { s.dec with key := setBlockWord s.dec.key n v } }

/-- The reset input (R210, R211): every element of the block at its reset value. The host's program, the order of the moves
to come and what the host has read are outside the block (log entry 13). -/
def resetBlock (s : State) : State :=
  { s with dec := Decryptor.reset, chk := Checker.reset, err := ErrRecord.clear }

/-- What the host reads at `off` reaches the host (R51; log entry 3). -/
def logRead (off : Offset) (s : State) : State :=
  { s with reads := s.reads ++ [(off, readOffset off s)] }

end Sys2Proof.Machine
end

