-- ==== Sys2Proof/Machine/Port.lean ====
section
/-! DEFINITION. The cipher port: its signals (60_exceptions.md R191) and the cipher agent's two steps (41_decrypt.md R114 to
R116). -/

namespace Sys2Proof.Machine

/-- `req_valid` (R191): a request is outstanding. -/
def reqValid (s : State) : Bool := s.dec.busy

/-- `req_block` (R113, R191), while a request is latched. -/
def reqBlock (s : State) : Option Port128 := s.dec.req.map fun r => portBits r.blk

/-- `req_key` (R113, R191), while a request is latched. -/
def reqKey (s : State) : Option Port128 := s.dec.req.map fun r => portBits r.key

/-- `rsp_block` of a success (R114, R191): `DECRYPT_BLOCK` of the latched request. -/
def rspBlock (s : State) : Option Port128 :=
  s.dec.req.map fun r => portBits (Config.decryptBlock r.key r.blk)

/-- `CipherOk` (R114) for the latched request `r`. -/
def deliverBlock (r : Request) (d : Decryptor) : Decryptor :=
  { d with
    obuf := Config.decryptBlock r.key r.blk
    ovalid := true
    busy := false
    blkcnt := d.blkcnt + 1
    req := none }

/-- `CipherErr` (R115) on the decrypt engine: the frame is abandoned. -/
def abandonFrame (d : Decryptor) : Decryptor :=
  { d with busy := false, req := none, dactive := false, ifill := 0 }

/-- `CipherErr` (R115): code 6, no command caused it. -/
def cipherFail (s : State) : State :=
  recordError .cipher 0x00 { s with dec := abandonFrame s.dec }

/-- The cipher agent answers with success (R114). With BUSY = 0 the response is ignored (R116; log entry 5). -/
def cipherOkMove (s : State) : Host.Outcome State Fault Refusal :=
  if !s.dec.busy then .next s
  else
    match s.dec.req with
    | some r => .next { s with dec := deliverBlock r s.dec }
    | none => .fault .requestMissing

/-- The cipher agent answers with an error (R115). With BUSY = 0 the response is ignored (R116), and where
`CIPHER_MAY_FAIL` is false the agent has no such step, so nothing happens (log entries 5 and 6). -/
def cipherErrMove (s : State) : Host.Outcome State Fault Refusal :=
  if !s.dec.busy then .next s
  else if Config.cipherMayFail then .next (cipherFail s)
  else .next s

end Sys2Proof.Machine
end

