-- ==== Sys2Proof/Syntax.lean ====
section
/-! DEFINITION. The commands of the opcode map, 30_encoding.md R83: one constructor per row of spec/opcode_table.json. -/

namespace Sys2Proof

/-- The eleven commands (R83). The byte operand of three of them is `IMM8`, unsigned and used as is (R82). -/
inductive Instr where
  | nop                    -- NOP, OP 0x00 (R101)
  | errClr                 -- ERR.CLR, OP 0x01 (R102)
  | decStart               -- DEC.START, OP 0x10 (R111)
  | decByte (b : Byte)     -- DEC.BYTE, OP 0x11 (R112)
  | decPop                 -- DEC.POP, OP 0x12 (R117)
  | decEnd                 -- DEC.END, OP 0x13 (R118)
  | crcInit                -- CRC.INIT, OP 0x20 (R143)
  | crcByte (b : Byte)     -- CRC.BYTE, OP 0x21 (R144)
  | verStart               -- VER.START, OP 0x30 (R161)
  | verByte (b : Byte)     -- VER.BYTE, OP 0x31 (R162)
  | verEnd                 -- VER.END, OP 0x32 (R163)
  deriving DecidableEq, Repr

end Sys2Proof
end

