-- ==== Sys2Proof/Decode.lean ====
section
/-! DEFINITION. The command word, 30_encoding.md: fields (R81), the opcode map (R83), decoding total over all 2^32 words
(R84), the encoder, and the mnemonics of the assembler syntax (R90). -/

namespace Sys2Proof

/-- Field RSV, bits 31:16 (R81). -/
def rsvOf (w : Word) : Half := w.extractLsb' 16 16

/-- Field OP, bits 15:8 (R81). -/
def opOf (w : Word) : Byte := w.extractLsb' 8 8

/-- Field IMM8, bits 7:0 (R81, R82). -/
def immOf (w : Word) : Byte := w.extractLsb' 0 8

/-- Why a word is `Illegal` (R84), one name for each of R85, R86 and R87. -/
inductive IllegalReason where
  | reservedField   -- RSV is not 0 (R85)
  | reservedOp      -- OP is not assigned (R86)
  | strayOperand    -- IMM8 is not 0 on a command that takes no operand (R87)
  deriving DecidableEq, Repr

/-- What `Decode` of R84 returns. -/
inductive Decoded where
  | cmd (i : Instr)
  | illegal (why : IllegalReason)
  deriving DecidableEq, Repr

/-- A command without an operand: legal only when IMM8 is 0 (R84, R87). -/
def Decoded.plain (i : Instr) (imm : Byte) : Decoded :=
  if imm = 0 then .cmd i else .illegal .strayOperand

/-- The opcode map of R83, applied to the fields OP and IMM8. -/
def decodeOp (op imm : Byte) : Decoded :=
  match op.toNat with
  | 0x00 => .plain .nop imm
  | 0x01 => .plain .errClr imm
  | 0x10 => .plain .decStart imm
  | 0x11 => .cmd (.decByte imm)
  | 0x12 => .plain .decPop imm
  | 0x13 => .plain .decEnd imm
  | 0x20 => .plain .crcInit imm
  | 0x21 => .cmd (.crcByte imm)
  | 0x30 => .plain .verStart imm
  | 0x31 => .cmd (.verByte imm)
  | 0x32 => .plain .verEnd imm
  | _ => .illegal .reservedOp

/-- `Decode(w)` of R84. -/
def decode (w : Word) : Decoded :=
  if rsvOf w = 0 then decodeOp (opOf w) (immOf w) else .illegal .reservedField

/-- The OP field of each command (R83). -/
def Instr.op : Instr → Byte
  | .nop => 0x00
  | .errClr => 0x01
  | .decStart => 0x10
  | .decByte _ => 0x11
  | .decPop => 0x12
  | .decEnd => 0x13
  | .crcInit => 0x20
  | .crcByte _ => 0x21
  | .verStart => 0x30
  | .verByte _ => 0x31
  | .verEnd => 0x32

/-- The IMM8 field of each command: its operand, or 0x00 (R81). -/
def Instr.imm : Instr → Byte
  | .nop => 0
  | .errClr => 0
  | .decStart => 0
  | .decByte b => b
  | .decPop => 0
  | .decEnd => 0
  | .crcInit => 0
  | .crcByte b => b
  | .verStart => 0
  | .verByte b => b
  | .verEnd => 0

/-- The word with RSV = 0x0000 and the given OP and IMM8 (R81). -/
def commandWord (op imm : Byte) : Word := 0x0000#16 ++ (op ++ imm)

/-- The word of a command (R81, R83). -/
def encode (i : Instr) : Word := commandWord i.op i.imm

/-- The mnemonic column of R83. -/
def Instr.mnemonic : Instr → String
  | .nop => "NOP"
  | .errClr => "ERR.CLR"
  | .decStart => "DEC.START"
  | .decByte _ => "DEC.BYTE"
  | .decPop => "DEC.POP"
  | .decEnd => "DEC.END"
  | .crcInit => "CRC.INIT"
  | .crcByte _ => "CRC.BYTE"
  | .verStart => "VER.START"
  | .verByte _ => "VER.BYTE"
  | .verEnd => "VER.END"

/-- The operand a statement of R90 writes after the mnemonic, where the command takes one. -/
def Instr.operand : Instr → Option Byte
  | .nop => none
  | .errClr => none
  | .decStart => none
  | .decByte b => some b
  | .decPop => none
  | .decEnd => none
  | .crcInit => none
  | .crcByte b => some b
  | .verStart => none
  | .verByte b => some b
  | .verEnd => none

/-- `MNEMONIC [imm]` of R90, with the operand already read as a byte. -/
def assemble (mnemonic : String) (imm : Option Byte) : Option Instr :=
  match mnemonic, imm with
  | "NOP", none => some .nop
  | "ERR.CLR", none => some .errClr
  | "DEC.START", none => some .decStart
  | "DEC.BYTE", some b => some (.decByte b)
  | "DEC.POP", none => some .decPop
  | "DEC.END", none => some .decEnd
  | "CRC.INIT", none => some .crcInit
  | "CRC.BYTE", some b => some (.crcByte b)
  | "VER.START", none => some .verStart
  | "VER.BYTE", some b => some (.verByte b)
  | "VER.END", none => some .verEnd
  | _, _ => none

/-- The first `nbits` bits of `w` as the one command word of the block (R80, R89), where they fit in it. -/
def tableWord (nbits w : Nat) : Option Word :=
  if w % 2 ^ nbits < 2 ^ 32 then some (BitVec.ofNat 32 (w % 2 ^ nbits)) else none

/-- The instruction the decoder reads from a row's bits, numbered as spec/opcode_table.json numbers them: a command is one
32-bit word (R89), so its bits are the word's own. -/
def decodeTableWord (nbits w : Nat) : Option Instr :=
  match tableWord nbits w with
  | none => none
  | some v =>
    match decode v with
    | .cmd i => some i
    | .illegal _ => none

end Sys2Proof
end

