-- ==== Sys2Proof/Machine/Control.lean ====
section
/-! DEFINITION. The control commands, 40_control.md R101 and R102. -/

namespace Sys2Proof.Machine

/-- NOP (R101): nothing, in any state. -/
def execNop (s : State) : Host.Outcome State Fault Refusal := .next s

/-- ERR.CLR (R102). -/
def execErrClr (s : State) : Host.Outcome State Fault Refusal := .next (clearError s)

end Sys2Proof.Machine
end

