-- ==== Sys2Proof/Machine/Decrypt.lean ====
section
/-! DEFINITION. The frame decryptor's commands, 41_decrypt.md R111, R112, R117 and R118. The checks of each stand in the
order of 60_exceptions.md R183. -/

namespace Sys2Proof.Machine

/-- The decrypt engine with a frame just opened (R111): KEY, IBUF and OBUF keep their contents. -/
def openFrame (d : Decryptor) : Decryptor :=
  { d with ifill := 0, ovalid := false, blkcnt := 0, drop := 0, dactive := true }

/-- The decrypt engine with byte `b` accepted (R112): the sixteenth byte of a chunk issues the request. -/
def acceptByte (b : Byte) (d : Decryptor) : Decryptor :=
  if d.ifill = 15 then
    { cipherIssue (storeAt d.ibuf d.ifill b) d.key { d with ibuf := storeAt d.ibuf d.ifill b } with ifill := 0 }
  else { d with ibuf := storeAt d.ibuf d.ifill b, ifill := d.ifill + 1 }

/-- The decrypt engine with the frame closed and its tail dropped (R118). -/
def closeFrame (d : Decryptor) : Decryptor :=
  { d with drop := d.ifill, ifill := 0, dactive := false }

/-- DEC.START (R111). -/
def execDecStart (s : State) : Host.Outcome State Fault Refusal :=
  if s.dec.busy then raise .busy Instr.decStart.op s
  else .next { s with dec := openFrame s.dec }

/-- DEC.BYTE (R112). -/
def execDecByte (b : Byte) (s : State) : Host.Outcome State Fault Refusal :=
  if !s.dec.dactive then raise .phase (Instr.decByte b).op s
  else if s.dec.busy then raise .busy (Instr.decByte b).op s
  else if s.dec.ovalid then raise .overrun (Instr.decByte b).op s
  else .next { s with dec := acceptByte b s.dec }

/-- DEC.POP (R117): OBUF is not cleared. -/
def execDecPop (s : State) : Host.Outcome State Fault Refusal :=
  if !s.dec.ovalid then raise .phase Instr.decPop.op s
  else .next { s with dec := { s.dec with ovalid := false } }

/-- DEC.END (R118). -/
def execDecEnd (s : State) : Host.Outcome State Fault Refusal :=
  if !s.dec.dactive then raise .phase Instr.decEnd.op s
  else if s.dec.busy then raise .busy Instr.decEnd.op s
  else .next { s with dec := closeFrame s.dec }

end Sys2Proof.Machine
end

