-- ==== Sys2Proof/Machine/Crc.lean ====
section
/-! DEFINITION. CRC-16, 42_crc.md R140 to R144. -/

namespace Sys2Proof.Machine

/-- One shift of R141: right by one, and XOR with the polynomial when a 1 fell out. -/
def crcShift (c : Half) : Half :=
  if c.getLsbD 0 then (c >>> 1) ^^^ Config.crcPoly else c >>> 1

/-- `n` shifts. -/
def crcShifts : Nat → Half → Half
  | 0, c => c
  | n + 1, c => crcShifts n (crcShift c)

/-- `CrcStep(c, b)` (R141). -/
def crcStep (c : Half) (b : Byte) : Half := crcShifts 8 (c ^^^ zext16 b)

/-- `crc16(data)` (R142): the left fold of `CrcStep` from the seed. -/
def crc16 (data : List Byte) : Half := data.foldl crcStep Config.crcSeed

/-- CRC.INIT (R143). -/
def execCrcInit (s : State) : Host.Outcome State Fault Refusal :=
  if s.chk.vactive then raise .phase Instr.crcInit.op s
  else .next { s with chk := { s.chk with crc := Config.crcSeed } }

/-- CRC.BYTE (R144). -/
def execCrcByte (b : Byte) (s : State) : Host.Outcome State Fault Refusal :=
  if s.chk.vactive then raise .phase (Instr.crcByte b).op s
  else .next { s with chk := { s.chk with crc := crcStep s.chk.crc b } }

end Sys2Proof.Machine
end

