-- ==== Sys2Proof/Machine/Verify.lean ====
section
/-! DEFINITION. The message verifier's commands, 43_verify.md R161 to R163. -/

namespace Sys2Proof.Machine

/-- The checksum engine at the start of a verify (R161): every element of it is written. -/
def openVerify (c : Checker) : Checker :=
  { c with
    crc := Config.crcSeed
    vcount := 0
    act := 0
    exp := 0
    vdone := false
    vok := false
    vshort := false
    vactive := true }

/-- `VCOUNT <- min(VCOUNT + 1, 16)` (R162). -/
def countByte (n : BitVec 5) : BitVec 5 := BitVec.ofNat 5 (min (n.toNat + 1) 16)

/-- The checksum engine with message byte number VCOUNT received (R162). -/
def feedByte (b : Byte) (c : Checker) : Checker :=
  if c.vcount.toNat < Config.verPrefix then { c with crc := crcStep c.crc b, vcount := countByte c.vcount }
  else if c.vcount.toNat = 14 then { c with act := half b (highByte c.act), vcount := countByte c.vcount }
  else if c.vcount.toNat = 15 then { c with act := half (lowByte c.act) b, vcount := countByte c.vcount }
  else { c with vcount := countByte c.vcount }

/-- The checksum engine with the message ended (R163): CRC keeps the prefix's CRC. -/
def closeVerify (c : Checker) : Checker :=
  { c with
    vactive := false
    vdone := true
    exp := c.crc
    vshort := (verifyFlags c).1
    vok := (verifyFlags c).2 }

/-- VER.START (R161): no state check. -/
def execVerStart (s : State) : Host.Outcome State Fault Refusal :=
  .next { s with chk := openVerify s.chk }

/-- VER.BYTE (R162). -/
def execVerByte (b : Byte) (s : State) : Host.Outcome State Fault Refusal :=
  if !s.chk.vactive then raise .phase (Instr.verByte b).op s
  else .next { s with chk := feedByte b s.chk }

/-- VER.END (R163): a mismatch is not an error (R166). -/
def execVerEnd (s : State) : Host.Outcome State Fault Refusal :=
  if !s.chk.vactive then raise .phase Instr.verEnd.op s
  else .next { s with chk := closeVerify s.chk }

end Sys2Proof.Machine
end

