-- ==== Sys2Proof/Machine/Dispatch.lean ====
section
/-! DEFINITION. One arm per command of 30_encoding.md R83. -/

namespace Sys2Proof.Machine

def exec (i : Instr) (s : State) : Host.Outcome State Fault Refusal :=
  match i with
  | .nop => Sys2Proof.Machine.execNop s
  | .errClr => Sys2Proof.Machine.execErrClr s
  | .decStart => Sys2Proof.Machine.execDecStart s
  | .decByte b => Sys2Proof.Machine.execDecByte b s
  | .decPop => Sys2Proof.Machine.execDecPop s
  | .decEnd => Sys2Proof.Machine.execDecEnd s
  | .crcInit => Sys2Proof.Machine.execCrcInit s
  | .crcByte b => Sys2Proof.Machine.execCrcByte b s
  | .verStart => Sys2Proof.Machine.execVerStart s
  | .verByte b => Sys2Proof.Machine.execVerByte b s
  | .verEnd => Sys2Proof.Machine.execVerEnd s

end Sys2Proof.Machine
end

