-- ==== Sys2Proof/Machine/HostBus.lean ====
section
/-! DEFINITION. The host's accesses, 20_memory.md R51 to R60: executing a command word (40_control.md R100), writing a
register, and one step of a host program (30_encoding.md R90). -/

namespace Sys2Proof.Machine

/-- `Execute(w)` (R100): every write of `w` to CMD. An illegal word has no effect beyond the record, with
`ERROPC = w[15:8]` (R84, R181). -/
def execute (w : Word) (s : State) : Host.Outcome State Fault Refusal :=
  match decode w with
  | .cmd i => exec i s
  | .illegal _ => raise .illegal (opOf w) s

/-- `WriteReg` of R52, over the register an offset names: a write to a read-only register or an unmapped offset has no effect
and records no error (R55, R56). -/
def writeReg (r : Reg) (v : Word) (s : State) : Host.Outcome State Fault Refusal :=
  match r with
  | .cmd => execute v s
  | .status => .next s
  | .crc => .next s
  | .vresult => .next s
  | .dcount => .next s
  | .err => .next s
  | .unmapped => .next s
  | .key n => .next (keyWrite n v s)
  | .out _ => .next s

/-- `WriteReg(off, v)` (R52). -/
def writeOffset (off : Offset) (v : Word) (s : State) : Host.Outcome State Fault Refusal :=
  writeReg (Reg.atOffset off) v s

/-- One statement of the host (R90): an access the block does not answer is refused (R54), one outside the window leaves the
block as it is (R60; log entry 10), and a POLL whose condition does not hold is made again at the host's next move. -/
def hostAccess (op : HostOp) (s : State) : Host.Outcome State Fault Refusal :=
  match op with
  | .read (.window off) size =>
    if answers off size then .next (logRead off s) else .refused .accessNotAnswered
  | .read (.outside _) _ => .next s
  | .write (.window off) size v =>
    if answers off size then writeOffset off v s else .refused .accessNotAnswered
  | .write (.outside _) _ _ => .next s
  | .poll off mask v =>
    if answers off .word then
      if readOffset off s &&& mask = v then .next (logRead off s)
      else .next { logRead off s with program := .poll off mask v :: s.program }
    else .refused .accessNotAnswered

/-- The host's move: its next statement (R20, R62), or nothing once its program has ended (R230; log entry 4). -/
def hostMove (s : State) : Host.Outcome State Fault Refusal :=
  match s.program with
  | [] => .next s
  | op :: rest => hostAccess op { s with program := rest }

end Sys2Proof.Machine
end

