-- ==== Sys2Proof/Machine/Programs.lean ====
section
/-! DEFINITION. The document's functions that the block realises (41_decrypt.md R110, 43_verify.md R160, R164), and the host
programs of 30_encoding.md R90 and 41_decrypt.md R120 that compute them. -/

namespace Sys2Proof.Machine

/-- `C MNEMONIC [imm]` (R90). -/
def cmd (i : Instr) : HostOp := .write (.window Reg.cmd.offset) .word (encode i)

/-- `W REG, v` (R90). -/
def writeTo (r : Reg) (v : Word) : HostOp := .write (.window r.offset) .word v

/-- `R REG` (R90). -/
def readFrom (r : Reg) : HostOp := .read (.window r.offset) .word

/-- `WAIT.IDLE` (R90). -/
def waitIdle : HostOp := .poll Reg.status.offset 0x00000001 0x00000000

/-- `LOAD.KEY k0 ... k15` (R90). -/
def loadKey (k : Block) : List HostOp :=
  [writeTo (.key 0) (blockWord k 0), writeTo (.key 1) (blockWord k 1), writeTo (.key 2) (blockWord k 2),
    writeTo (.key 3) (blockWord k 3)]

/-- `READ.OUT` (R90). -/
def readOut : List HostOp := [readFrom (.out 0), readFrom (.out 1), readFrom (.out 2), readFrom (.out 3)]

/-- `DEC.FEED b0 ... bn-1` (R90). -/
def decFeed (bs : List Byte) : List HostOp := bs.map fun b => cmd (.decByte b)

/-- `CRC.BYTES b0 ... bn-1` (R90). -/
def crcBytes (bs : List Byte) : List HostOp := bs.map fun b => cmd (.crcByte b)

/-- `VER.MSG b0 ... bn-1` (R90). -/
def verMsg (m : List Byte) : List HostOp := cmd .verStart :: (m.map fun b => cmd (.verByte b)) ++ [cmd .verEnd]

/-- `CRC16 b0 ... bn-1` (R90). -/
def crc16Program (bs : List Byte) : List HostOp := cmd .crcInit :: crcBytes bs ++ [readFrom .crc]

/-- The loop of R120 from frame byte number `j` on. -/
def frameBytes (j : Nat) : List Byte → List HostOp
  | [] => []
  | b :: bs =>
    cmd (.decByte b) :: (if j % 16 = 15 then waitIdle :: readOut ++ [cmd .decPop] else []) ++ frameBytes (j + 1) bs

/-- The host sequence of R120 for a frame. -/
def frameProgram (f : List Byte) : List HostOp := cmd .decStart :: frameBytes 0 f ++ [cmd .decEnd]

/-- Chunk number `j` of a frame: `frame[16j, 16j+16)` (R110, R12). -/
def chunk (f : List Byte) (j : Nat) : Block := Vector.ofFn fun i => f.getD (16 * j + i.val) 0

/-- The blocks of `decrypt(frame, key)` (R110), in order: one for each whole chunk, the tail omitted. -/
def decryptBlocks (f : List Byte) (key : Block) : List Block :=
  (List.range (f.length / Config.blockBytes)).map fun j => Config.decryptBlock key (chunk f j)

/-- `decrypt(frame, key)` (R110). -/
def decrypt (f : List Byte) (key : Block) : List Byte := (decryptBlocks f key).flatMap Vector.toList

/-- The document's verify result (R160), and the block's third outcome for a short message (R168). -/
inductive VerifyResult where
  | ok
  | mismatch (expected actual : Half)
  | short
  deriving DecidableEq, Repr

/-- `m[14] | m[15] << 8` (R160): the little-endian trailer, a missing byte being 0x00 (R168). -/
def trailer (m : List Byte) : Half := half (m.getD 14 0) (m.getD 15 0)

/-- `verify(m)` (R160), with the third outcome of R168 below 16 bytes. -/
def verify (m : List Byte) : VerifyResult :=
  if m.length < Config.verMinLen then .short
  else if crc16 (m.take Config.verPrefix) = trailer m then .ok
  else .mismatch (crc16 (m.take Config.verPrefix)) (trailer m)

/-- The result the block holds (R164), where it holds one. -/
def heldResult (c : Checker) : Option VerifyResult :=
  if !c.vdone then none
  else if c.vshort then some .short
  else if c.vok then some .ok
  else some (.mismatch c.exp c.act)

end Sys2Proof.Machine
end

