-- ==== Sys2Proof/Machine/Step.lean ====
section
/-! DEFINITION. One step of the total order, 20_memory.md R61 and R62: the agent that `sched` names moves, or the host where
it names none (log entry 2). -/

namespace Sys2Proof.Machine

/-- One indivisible step (R61): a host access, a cipher response, or reset (R20, R210). -/
def step (s : State) : Host.Outcome State Fault Refusal :=
  match s.sched with
  | [] => hostMove s
  | .host :: rest => hostMove { s with sched := rest }
  | .cipherOk :: rest => cipherOkMove { s with sched := rest }
  | .cipherErr :: rest => cipherErrMove { s with sched := rest }
  | .reset :: rest => .next (resetBlock { s with sched := rest })

/-- The block fetches nothing (R39, R64): its next instruction is the word the host's next access writes to CMD. So the
instruction is placed as that access, and the host is made the agent that moves next (log entry 14). -/
def State.withFetchWord (s : State) (nbits w : Nat) : State :=
  { s with
    program := .write (.window Reg.cmd.offset) .word (BitVec.ofNat 32 (w % 2 ^ nbits)) :: s.program
    sched := .host :: s.sched }

end Sys2Proof.Machine
end

