-- ==== Sys2Proof/Machine/Effects.lean ====
section
/-! DEFINITION. The effects of the commands collected beside their checks: what each does when none of its checks fails. No step
goes through this file; the laws of Sys2Proof/Laws/Commands.lean prove every meaning equal to its checks and this, and the
statement of R100 says so. -/

namespace Sys2Proof.Machine

/-- What a command does when no check of it fails (the pseudocode of its rule below the checks). -/
def effect (i : Instr) (s : State) : State :=
  match i with
  | .nop => s
  | .errClr => clearError s
  | .decStart => { s with dec := openFrame s.dec }
  | .decByte b => { s with dec := acceptByte b s.dec }
  | .decPop => { s with dec := { s.dec with ovalid := false } }
  | .decEnd => { s with dec := closeFrame s.dec }
  | .crcInit => { s with chk := { s.chk with crc := Config.crcSeed } }
  | .crcByte b => { s with chk := { s.chk with crc := crcStep s.chk.crc b } }
  | .verStart => { s with chk := openVerify s.chk }
  | .verByte b => { s with chk := feedByte b s.chk }
  | .verEnd => { s with chk := closeVerify s.chk }

end Sys2Proof.Machine
end

