-- ==== Sys2Proof/Machine/Aes.lean ====
section
/-! DEFINITION. AES-128 encryption of one block, for the named property of 00_scope.md R13 that the cipher is AES. No step goes
through this file: the block does not compute the cipher (R5, R13). PRESUMED (log entry 24): the algorithm is FIPS-197's, which
spec/ names and does not give; byte `i` of a block is row `i mod 4` of column `i / 4` of the cipher's state. -/

namespace Sys2Proof.Machine

/-- Row `hi` of the substitution table, the value for low digit 0 first. -/
def aesSboxRow (hi : Nat) : Port128 :=
  match hi with
  | 0x0 => 0x637C777BF26B6FC53001672BFED7AB76
  | 0x1 => 0xCA82C97DFA5947F0ADD4A2AF9CA472C0
  | 0x2 => 0xB7FD9326363FF7CC34A5E5F171D83115
  | 0x3 => 0x04C723C31896059A071280E2EB27B275
  | 0x4 => 0x09832C1A1B6E5AA0523BD6B329E32F84
  | 0x5 => 0x53D100ED20FCB15B6ACBBE394A4C58CF
  | 0x6 => 0xD0EFAAFB434D338545F9027F503C9FA8
  | 0x7 => 0x51A3408F929D38F5BCB6DA2110FFF3D2
  | 0x8 => 0xCD0C13EC5F974417C4A77E3D645D1973
  | 0x9 => 0x60814FDC222A908846EEB814DE5E0BDB
  | 0xA => 0xE0323A0A4906245CC2D3AC629195E479
  | 0xB => 0xE7C8376D8DD54EA96C56F4EA657AAE08
  | 0xC => 0xBA78252E1CA6B4C6E8DD741F4BBD8B8A
  | 0xD => 0x703EB5664803F60E613557B986C11D9E
  | 0xE => 0xE1F8981169D98E949B1E87E9CE5528DF
  | _ => 0x8CA1890DBFE6426841992D0FB054BB16

/-- The substitution of one byte. -/
def aesSub (b : Byte) : Byte := (aesSboxRow (b.toNat / 16)).extractLsb' (8 * (15 - b.toNat % 16)) 8

/-- Multiplication by 2 in the cipher's field. -/
def aesDouble (b : Byte) : Byte := if b.getLsbD 7 then (b <<< 1) ^^^ 0x1B else b <<< 1

/-- The block of the bytes `f 0` to `f 15`. -/
def bytes16 (f : Fin 16 → Byte) : Block :=
  #v[f 0, f 1, f 2, f 3, f 4, f 5, f 6, f 7, f 8, f 9, f 10, f 11, f 12, f 13, f 14, f 15]

/-- Every byte substituted. -/
def aesSubBytes (a : Block) : Block := bytes16 fun i => aesSub a[i]

/-- Row `r` rotated left by `r`: byte `i` comes from byte `5i mod 16`. -/
def aesShiftRows (a : Block) : Block :=
  #v[a[0], a[5], a[10], a[15], a[4], a[9], a[14], a[3], a[8], a[13], a[2], a[7], a[12], a[1], a[6], a[11]]

/-- One output byte of a column: `2a + 3b + c + d`. -/
def aesMix (a b c d : Byte) : Byte := aesDouble a ^^^ aesDouble b ^^^ b ^^^ c ^^^ d

/-- Every column mixed. -/
def aesMixColumns (a : Block) : Block :=
  #v[aesMix a[0] a[1] a[2] a[3], aesMix a[1] a[2] a[3] a[0], aesMix a[2] a[3] a[0] a[1], aesMix a[3] a[0] a[1] a[2],
    aesMix a[4] a[5] a[6] a[7], aesMix a[5] a[6] a[7] a[4], aesMix a[6] a[7] a[4] a[5], aesMix a[7] a[4] a[5] a[6],
    aesMix a[8] a[9] a[10] a[11], aesMix a[9] a[10] a[11] a[8], aesMix a[10] a[11] a[8] a[9], aesMix a[11] a[8] a[9] a[10],
    aesMix a[12] a[13] a[14] a[15], aesMix a[13] a[14] a[15] a[12], aesMix a[14] a[15] a[12] a[13],
    aesMix a[15] a[12] a[13] a[14]]

/-- A round key added. -/
def aesAddKey (a key : Block) : Block := bytes16 fun i => a[i] ^^^ key[i]

/-- The next round key: its first column from the last one rotated, substituted and marked with the round constant, each later
column from the one before it. -/
def aesNextKey (rcon : Byte) (k : Block) : Block :=
  let w : Vector Byte 4 :=
    #v[k[0] ^^^ aesSub k[13] ^^^ rcon, k[1] ^^^ aesSub k[14], k[2] ^^^ aesSub k[15], k[3] ^^^ aesSub k[12]]
  #v[w[0], w[1], w[2], w[3],
    w[0] ^^^ k[4], w[1] ^^^ k[5], w[2] ^^^ k[6], w[3] ^^^ k[7],
    w[0] ^^^ k[4] ^^^ k[8], w[1] ^^^ k[5] ^^^ k[9], w[2] ^^^ k[6] ^^^ k[10], w[3] ^^^ k[7] ^^^ k[11],
    w[0] ^^^ k[4] ^^^ k[8] ^^^ k[12], w[1] ^^^ k[5] ^^^ k[9] ^^^ k[13], w[2] ^^^ k[6] ^^^ k[10] ^^^ k[14],
    w[3] ^^^ k[7] ^^^ k[11] ^^^ k[15]]

/-- A full round under its round key. -/
def aesRound (key a : Block) : Block := aesAddKey (aesMixColumns (aesShiftRows (aesSubBytes a))) key

/-- The last round, which mixes no columns. -/
def aesLastRound (key a : Block) : Block := aesAddKey (aesShiftRows (aesSubBytes a)) key

/-- `n` full rounds and the last one, from the round key before them and the round constant of the first. -/
def aesRounds : Nat → Byte → Block → Block → Block
  | 0, rcon, key, a => aesLastRound (aesNextKey rcon key) a
  | n + 1, rcon, key, a => aesRounds n (aesDouble rcon) (aesNextKey rcon key) (aesRound (aesNextKey rcon key) a)

/-- AES-128 encryption of one block: nine full rounds and the last. -/
def aes128 (key blk : Block) : Block := aesRounds 9 0x01 key (aesAddKey blk key)

/-- "The fact that it is AES is a named property a claim may assume" (R13, I1): the forward direction of the cipher is AES-128
encryption under every key, so that DECRYPT_BLOCK, its inverse by R13, is AES-128 decryption. -/
def CipherAgreesWithAes : Prop := ∀ key blk : Block, Config.encryptBlock key blk = aes128 key blk

end Sys2Proof.Machine
end

