-- ==== Sys2Proof/WellFormed.lean ====
section
/-! DEFINITION. Which terms the spec gives a meaning: every command (the operand's range is carried by its type, R82), and
of the host's accesses the 32-bit aligned ones (20_memory.md R54). -/

namespace Sys2Proof

/-- Every command is well formed: "Every value of b is legal" (R112, R144, R162), and the others have no operand (R83). -/
def Instr.wellFormed : Instr → Bool
  | .nop => true
  | .errClr => true
  | .decStart => true
  | .decByte _ => true
  | .decPop => true
  | .decEnd => true
  | .crcInit => true
  | .crcByte _ => true
  | .verStart => true
  | .verByte _ => true
  | .verEnd => true

/-- A 32-bit access (R54: "an 8-bit or 16-bit access" is refused). -/
def Machine.AccessSize.isWord : Machine.AccessSize → Bool
  | .byte => false
  | .half => false
  | .word => true

/-- Offset `off` is a multiple of 4 (R54). -/
def Machine.Target.aligned : Machine.Target → Bool
  | .window off => off.toNat % 4 == 0
  | .outside _ => true

/-- The host statements the block has a step for (R54): inside the window, 32 bits wide at a multiple of 4. -/
def Machine.HostOp.wellFormed : Machine.HostOp → Bool
  | .read (.window off) size => size.isWord && (Machine.Target.window off).aligned
  | .read (.outside _) _ => true
  | .write (.window off) size _ => size.isWord && (Machine.Target.window off).aligned
  | .write (.outside _) _ _ => true
  | .poll off _ _ => (Machine.Target.window off).aligned

end Sys2Proof
end

