-- ==== Sys2Proof/Safety.lean ====
section
/-! DEFINITION. What claims say of states and runs: the invariant of 10_state.md R41, the quiescent states of
70_reset_and_hazards.md R230, the fairness premise of R229, and the key of the AES rows of 95_test_vectors.md. -/

namespace Sys2Proof.Machine

/-- The invariant of R41, its seven numbered points, with two facts R41 leaves to R25 and R181: a request is latched exactly
while BUSY = 1, and no code above 6 is ever recorded. -/
structure BlockInv (s : State) : Prop where
  busy_dactive : s.dec.busy = true → s.dec.dactive = true
  busy_ovalid : s.dec.busy = true → s.dec.ovalid = false
  vactive_vdone : s.chk.vactive = true → s.chk.vdone = false
  vok_vdone : s.chk.vok = true → s.chk.vdone = true ∧ s.chk.vshort = false
  vshort_vdone : s.chk.vshort = true → s.chk.vdone = true
  vcount_le : s.chk.vcount.toNat ≤ 16
  ifill_le : s.dec.ifill.toNat ≤ 15
  clear_record : s.err.code = 0 → s.err.opc = 0 ∧ s.err.multi = false
  req_busy : s.dec.req.isSome = s.dec.busy
  code_le : s.err.code.toNat ≤ 6

/-- The three parts of the state that are the block (R20): what a step that is no step of the block leaves unchanged. -/
def SameBlock (s t : State) : Prop := t.dec = s.dec ∧ t.chk = s.chk ∧ t.err = s.err

/-- The host is the agent that moves in this step (R20, R62), also where no move is listed (log entry 2). -/
def HostMoves (s : State) : Prop := s.sched.head? = none ∨ s.sched.head? = some .host

/-- The state the host's access runs in: its statement and its move are used up, nothing else has happened. -/
def State.afterFetch (s : State) (rest : List HostOp) : State := { s with program := rest, sched := s.sched.tail }

/-- No reset is asserted in the moves to come (R210). -/
def NoReset (s : State) : Prop := Move.reset ∉ s.sched

/-- No cipher failure is among the moves to come (R115). -/
def NoCipherErr (s : State) : Prop := Move.cipherErr ∉ s.sched

/-- PHASE of R181: a command in a phase where it has no meaning. -/
def phaseError (i : Instr) (s : State) : Bool :=
  match i with
  | .nop => false
  | .errClr => false
  | .decStart => false
  | .decByte _ => !s.dec.dactive
  | .decPop => !s.dec.ovalid
  | .decEnd => !s.dec.dactive
  | .crcInit => s.chk.vactive
  | .crcByte _ => s.chk.vactive
  | .verStart => false
  | .verByte _ => !s.chk.vactive
  | .verEnd => !s.chk.vactive

/-- BUSY of R181: DEC.START, DEC.BYTE or DEC.END while BUSY = 1. -/
def busyError (i : Instr) (s : State) : Bool :=
  match i with
  | .nop => false
  | .errClr => false
  | .decStart => s.dec.busy
  | .decByte _ => s.dec.busy
  | .decPop => false
  | .decEnd => s.dec.busy
  | .crcInit => false
  | .crcByte _ => false
  | .verStart => false
  | .verByte _ => false
  | .verEnd => false

/-- OVERRUN of R181: DEC.BYTE while OVALID = 1. -/
def overrunError (i : Instr) (s : State) : Bool :=
  match i with
  | .nop => false
  | .errClr => false
  | .decStart => false
  | .decByte _ => s.dec.ovalid
  | .decPop => false
  | .decEnd => false
  | .crcInit => false
  | .crcByte _ => false
  | .verStart => false
  | .verByte _ => false
  | .verEnd => false

/-- The one error a command reports, the first in the order of R183 after ILLEGAL. -/
def firstError (i : Instr) (s : State) : Option ErrCode :=
  if phaseError i s then some .phase
  else if busyError i s then some .busy
  else if overrunError i s then some .overrun
  else none

/-- The commands of 41_decrypt.md. -/
def decryptCommand : Instr → Bool
  | .nop => false
  | .errClr => false
  | .decStart => true
  | .decByte _ => true
  | .decPop => true
  | .decEnd => true
  | .crcInit => false
  | .crcByte _ => false
  | .verStart => false
  | .verByte _ => false
  | .verEnd => false

/-- The commands of 42_crc.md and 43_verify.md. -/
def checksumCommand : Instr → Bool
  | .nop => false
  | .errClr => false
  | .decStart => false
  | .decByte _ => false
  | .decPop => false
  | .decEnd => false
  | .crcInit => true
  | .crcByte _ => true
  | .verStart => true
  | .verByte _ => true
  | .verEnd => true

/-- The next `k` moves are the host's, also where fewer than `k` are listed (log entry 2). -/
def HostOnly (k : Nat) (s : State) : Prop := ∀ m ∈ s.sched.take k, m = .host

/-- The command a host access has the block execute (R43, R52): that of the word it writes to CMD, where the word is legal. -/
def HostOp.command : HostOp → Option Instr
  | .read _ _ => none
  | .write (.window off) _ v =>
    match Reg.atOffset off, decode v with
    | .cmd, .cmd i => some i
    | _, _ => none
  | .write (.outside _) _ _ => none
  | .poll _ _ _ => none

/-- A write to one of KEY0 to KEY3 (R57). -/
def HostOp.writesKey : HostOp → Bool
  | .read _ _ => false
  | .write (.window off) _ _ =>
    match Reg.atOffset off with
    | .key _ => true
    | _ => false
  | .write (.outside _) _ _ => false
  | .poll _ _ _ => false

/-- An access that runs a command of the checksum engine: no other access writes that engine (R59, D32). -/
def HostOp.usesChecksum (op : HostOp) : Bool := op.command.any checksumCommand

/-- An access that runs a command of the decrypt engine or writes KEY: no other access writes that engine (R59, D32). -/
def HostOp.usesDecrypt (op : HostOp) : Bool := op.command.any decryptCommand || op.writesKey

/-- A change of the next state, leaving a stop a stop. -/
def onNext (f : State → State) : Host.Outcome State Fault Refusal → Host.Outcome State Fault Refusal
  | .next t => .next (f t)
  | .fault r => .fault r
  | .refused r => .refused r

/-- The part of what the host has read that came from OUT0 to OUT3. -/
def outReads (l : List (Offset × Word)) : List (Offset × Word) := l.filter fun p => 0x30 ≤ p.1.toNat

/-- What READ.OUT reads of a block (R49, R90). -/
def blockReads (b : Block) : List (Offset × Word) :=
  [(0x30, blockWord b 0), (0x34, blockWord b 1), (0x38, blockWord b 2), (0x3C, blockWord b 3)]

/-- End of a run (R230): the host has made its last access and no request is outstanding. -/
def Quiescent (s : State) : Prop := s.program = [] ∧ s.dec.busy = false

/-- `CIPHER_RESPONDS` (R229), a premise and no part of the step: from every state the run reaches with a request outstanding,
it goes on to one without. DESIGN CHOICE (log entry 16): the spec leaves open whether a request abandoned by a reset counts as
answered (R229 says answered by `CipherOk` or `CipherErr`, R213 that an abandoned request never gets a response); here any later
state with BUSY = 0 will do, one after a reset included. -/
def CipherResponds (s : State) : Prop :=
  ∀ (n : Nat) (t : State), core.run n s = .next t → t.dec.busy = true → ∃ (m : Nat) (u : State), core.run m t = .next u ∧ u.dec.busy = false

/-- The key of the AES rows of 95_test_vectors.md section 2.5. -/
def aesKey : Block :=
  #v[0x00, 0x01, 0x02, 0x03, 0x04, 0x05, 0x06, 0x07, 0x08, 0x09, 0x0A, 0x0B, 0x0C, 0x0D, 0x0E, 0x0F]

end Sys2Proof.Machine
end

