-- ==== Sys2Proof/Certificates/Slice0/Obligations.lean ====
section
/-! DEFINITION. The statements for the provers, taken from the numbered rules of spec/. Each docstring names the rule or the
section it formalises. A statement of a command's result is an equation `exec i s = .next t`, so it is also the command's
completion and its frame: `t` is written as an update of `s`. -/

open Sys2Proof Sys2Proof.Machine

/-! ## Encoding -/

/-- Words written out from 30_encoding.md R83 and the examples of R92 (which the spec marks as derived) decode to what they
stand for. -/
def Obligations.WrittenWordsDecode : Prop :=
  decode 0x00000000 = .cmd .nop ∧ decode 0x00000100 = .cmd .errClr ∧ decode 0x00001000 = .cmd .decStart ∧
  decode 0x000011FF = .cmd (.decByte 0xFF) ∧ decode 0x00001200 = .cmd .decPop ∧ decode 0x00001300 = .cmd .decEnd ∧
  decode 0x00002000 = .cmd .crcInit ∧ decode 0x00002131 = .cmd (.crcByte 0x31) ∧ decode 0x00003000 = .cmd .verStart ∧
  decode 0x00003100 = .cmd (.verByte 0x00) ∧ decode 0x00003200 = .cmd .verEnd ∧
  decode 0x00003201 = .illegal .strayOperand ∧ decode 0x00010021 = .illegal .reservedField ∧
  decode 0x00004000 = .illegal .reservedOp

/-- Decode and encode agree, in both directions and on every one of the 2^32 words (R81, R83, R84): every encoded command
decodes to itself with its operand, and a word decodes to a command only if it is that command's word. -/
def Obligations.DecodeAndEncodeAgree : Prop :=
  ∀ (w : Word) (i : Instr), decode w = .cmd i ↔ w = encode i

/-- R84: decoding is total, a word is Illegal exactly under the conditions R84 writes, a legal word decodes to the command with
its OP and IMM8, and an Illegal word executes as `raise Error(ILLEGAL)` with `ERROPC = w[15:8]` and no other effect. -/
def Obligations.IllegalWordsExactly : Prop :=
  ∀ (w : Word) (s : State),
    ((∃ why, decode w = .illegal why) ↔
      (w.extractLsb' 16 16 ≠ 0 ∨
        ¬(w.extractLsb' 8 8 ∈ [0x11#8, 0x21, 0x31] ∨
          (w.extractLsb' 8 8 ∈ [0x00#8, 0x01, 0x10, 0x12, 0x13, 0x20, 0x30, 0x32] ∧ w.extractLsb' 0 8 = 0)))) ∧
    ((∃ why, decode w = .illegal why) → execute w s = .next (recordError .illegal (w.extractLsb' 8 8) s)) ∧
    (∀ i, decode w = .cmd i → i.op = w.extractLsb' 8 8 ∧ i.imm = w.extractLsb' 0 8)

/-- R85, R86 and R87: a word with RSV != 0, a reserved OP, or a stray IMM8 is illegal, and writing one has no effect except
the error record. -/
def Obligations.ReservedEncodingsOnlyRecord : Prop :=
  ∀ (w : Word) (s : State),
    (w.extractLsb' 16 16 ≠ 0 →
      decode w = .illegal .reservedField ∧ execute w s = .next (recordError .illegal (w.extractLsb' 8 8) s)) ∧
    (∀ op imm : Byte,
      (0x02 ≤ op.toNat ∧ op.toNat ≤ 0x0F ∨ 0x14 ≤ op.toNat ∧ op.toNat ≤ 0x1F ∨ 0x22 ≤ op.toNat ∧ op.toNat ≤ 0x2F ∨
        0x33 ≤ op.toNat ∧ op.toNat ≤ 0xFF) →
      decode (commandWord op imm) = .illegal .reservedOp ∧
        execute (commandWord op imm) s = .next (recordError .illegal op s)) ∧
    (∀ (i : Instr) (imm : Byte), i.operand = none → imm ≠ 0 →
      decode (commandWord i.op imm) = .illegal .strayOperand ∧
        execute (commandWord i.op imm) s = .next (recordError .illegal i.op s))

/-- A mnemonic of R90 with its operand assembles to the command it names. The model's choices (log entry 22), and no sentence of
R90: the operand is already read as an optional byte, and a mnemonic with a missing or a superfluous operand assembles to none. -/
def Obligations.MnemonicsAssemble : Prop :=
  ∀ i : Instr, assemble i.mnemonic i.operand = some i ∧
    (∀ b : Byte, i.operand = none → assemble i.mnemonic (some b) = none) ∧
    (i.operand ≠ none → assemble i.mnemonic none = none)

/-! ## Execution and errors -/

/-- A step runs the decoded instruction (R43, R52, R100): when the host's next access writes `w` to CMD, the step executes `w`
in the state whose access and move are used up, and where `w` decodes to `i` that is `exec i`. A read of CMD returns 0 and
changes nothing of the block. -/
def Obligations.StepRunsDecodedCommand : Prop :=
  ∀ (s : State) (w : Word) (rest : List HostOp), HostMoves s →
    (s.program = .write (.window 0x00) .word w :: rest →
      step s = execute w (s.afterFetch rest) ∧ ∀ i, decode w = .cmd i → step s = exec i (s.afterFetch rest)) ∧
    (s.program = .read (.window 0x00) .word :: rest →
      step s = .next { s.afterFetch rest with reads := s.reads ++ [(0x00, 0x00000000)] })

/-- R100: an Illegal word only records ILLEGAL; a command either fails its checks and only records an error with its OP, or
runs completely: its whole `effect` happens, and the error record is what it was unless the command is ERR.CLR. -/
def Obligations.CommandsAreAllOrNothing : Prop :=
  ∀ (w : Word) (s : State),
    (∀ why, decode w = .illegal why → execute w s = .next (recordError .illegal (w.extractLsb' 8 8) s)) ∧
    (∀ i, decode w = .cmd i → execute w s = exec i s ∧
      ((∃ c, firstError i s = some c ∧ exec i s = .next (recordError c i.op s)) ∨
        (firstError i s = none ∧ exec i s = .next (effect i s) ∧ (i ≠ .errClr → (effect i s).err = s.err))))

/-- R183: one error a command, the first in the order ILLEGAL, PHASE, BUSY, OVERRUN; and BUSY and OVERRUN never both apply
(in the states of the invariant R41). -/
def Obligations.ErrorPriority : Prop :=
  ∀ (w : Word) (i : Instr) (s : State),
    ((∃ why, decode w = .illegal why) → execute w s = .next (recordError .illegal (w.extractLsb' 8 8) s)) ∧
    (decode w = .cmd i →
      (phaseError i s = true → execute w s = .next (recordError .phase i.op s)) ∧
      (phaseError i s = false → busyError i s = true → execute w s = .next (recordError .busy i.op s)) ∧
      (phaseError i s = false → busyError i s = false → overrunError i s = true →
        execute w s = .next (recordError .overrun i.op s)) ∧
      (phaseError i s = false → busyError i s = false → overrunError i s = false →
        ∃ t, execute w s = .next t ∧ (i ≠ .errClr → t.err = s.err))) ∧
    (BlockInv s → ¬(s.dec.busy = true ∧ s.dec.ovalid = true))

/-- R182 with the numbers of R181: the first error is kept with its code and OP, a later one only sets ERRMULTI, and nothing
else of the machine changes. -/
def Obligations.RecordErrorKeepsTheFirst : Prop :=
  ∀ (code : ErrCode) (opc : Byte) (s : State),
    (s.err.code = 0 → recordError code opc s = { s with err := { code := code.bits, opc := opc, multi := s.err.multi } }) ∧
    (s.err.code ≠ 0 → recordError code opc s = { s with err := { s.err with multi := true } }) ∧
    code.bits = (match code with
      | .illegal => 1 | .phase => 2 | .busy => 3 | .overrun => 4 | .keylock => 5 | .cipher => 6)

/-- R37 and R188: once an error is recorded, no step changes its code or its OP but a reset or the host's writing ERR.CLR; and
ERRMULTI, once set, is cleared by nothing else either. -/
def Obligations.RecordClearedOnlyByErrClrOrReset : Prop :=
  ∀ s t : State, step s = .next t → s.err.code ≠ 0 → s.sched.head? ≠ some .reset →
    (¬∃ off v rest, HostMoves s ∧ s.program = .write (.window off) .word v :: rest ∧ Reg.atOffset off = .cmd ∧
      decode v = .cmd .errClr) →
    t.err.code = s.err.code ∧ t.err.opc = s.err.opc ∧ (s.err.multi = true → t.err.multi = true)

/-! ## Control commands -/

/-- R101: NOP does nothing in any state; with IMM8 != 0 its word is illegal, recorded with ERROPC = 0x00; a read of CMD reads
0. -/
def Obligations.NopHasNoEffect : Prop :=
  encode .nop = 0x00000000 ∧
  ∀ s : State, exec .nop s = .next s ∧ readOffset 0x00 s = 0x00000000 ∧
    ∀ b : Byte, b ≠ 0 → execute (0x00000000 ||| b.setWidth 32) s = .next (recordError .illegal 0x00 s)

/-- R102: ERR.CLR clears the three fields of the record and leaves every other element alone; STATUS.ERR is then 0; with
IMM8 != 0 the word is illegal and clears nothing. With ERRCODE = 0 in a state of the invariant it changes nothing. No step takes a
record from non-zero to zero but reset and the host's writing ERR.CLR. -/
def Obligations.ErrClrClearsRecord : Prop :=
  encode .errClr = 0x00000100 ∧
  ∀ s : State, exec .errClr s = .next { s with err := { code := 0, opc := 0x00, multi := false } } ∧
    (∀ t, exec .errClr s = .next t → (readOffset 0x04 t).getLsbD 7 = false) ∧
    (∀ b : Byte, b ≠ 0 → ∃ t, execute (0x00000100 ||| b.setWidth 32) s = .next t ∧ t.err.code ≠ 0 ∧
      (s.err.code ≠ 0 → t = { s with err := { s.err with multi := true } }) ∧
      (s.err.code = 0 → t = { s with err := { s.err with code := 1, opc := 0x01 } })) ∧
    (BlockInv s → s.err.code = 0 → exec .errClr s = .next s) ∧
    (∀ t, step s = .next t → s.err.code ≠ 0 → t.err.code = 0 → s.sched.head? = some .reset ∨
      (HostMoves s ∧ ∃ off v rest, s.program = .write (.window off) .word v :: rest ∧ Reg.atOffset off = .cmd ∧
        decode v = .cmd .errClr))

/-! ## Decrypt commands -/

/-- R111: DEC.START opens or restarts a frame, keeping KEY, IBUF and OBUF; it reports BUSY while a request is outstanding. -/
def Obligations.DecStartOpensFrame : Prop :=
  encode .decStart = 0x00001000 ∧
  ∀ s : State,
    (s.dec.busy = true → exec .decStart s = .next (recordError .busy 0x10 s)) ∧
    (s.dec.busy = false → exec .decStart s =
      .next { s with dec := { s.dec with ifill := 0, ovalid := false, blkcnt := 0, drop := 0, dactive := true } }) ∧
    (∀ b : Byte, b ≠ 0 → execute (0x00001000 ||| b.setWidth 32) s = .next (recordError .illegal 0x10 s))

/-- R112 and R113: DEC.BYTE reports PHASE, BUSY and OVERRUN in that order; an accepted byte goes to IBUF[IFILL]; the sixteenth
issues the request, a snapshot of IBUF with that byte in it and of KEY, and IFILL returns to 0. -/
def Obligations.DecByteFeedsTheChunk : Prop :=
  ∀ (b : Byte) (s : State),
    encode (.decByte b) = 0x00001100 ||| b.setWidth 32 ∧
    (s.dec.dactive = false → exec (.decByte b) s = .next (recordError .phase 0x11 s)) ∧
    (s.dec.dactive = true → s.dec.busy = true → exec (.decByte b) s = .next (recordError .busy 0x11 s)) ∧
    (s.dec.dactive = true → s.dec.busy = false → s.dec.ovalid = true →
      exec (.decByte b) s = .next (recordError .overrun 0x11 s)) ∧
    (s.dec.dactive = true → s.dec.busy = false → s.dec.ovalid = false → s.dec.ifill ≠ 15 →
      exec (.decByte b) s = .next { s with dec := { s.dec with
        ibuf := s.dec.ibuf.set s.dec.ifill.toNat b s.dec.ifill.isLt
        ifill := s.dec.ifill + 1 } }) ∧
    (s.dec.dactive = true → s.dec.busy = false → s.dec.ovalid = false → s.dec.ifill = 15 →
      exec (.decByte b) s = .next { s with dec := { s.dec with
        ibuf := s.dec.ibuf.set 15 b
        req := some { blk := s.dec.ibuf.set 15 b, key := s.dec.key }
        busy := true
        ifill := 0 } })

/-- R117: DEC.POP releases the output buffer and leaves OBUF as it is; with no block held it reports PHASE; it does not need an
open frame. -/
def Obligations.DecPopReleasesBlock : Prop :=
  encode .decPop = 0x00001200 ∧
  ∀ s : State,
    (s.dec.ovalid = false → exec .decPop s = .next (recordError .phase 0x12 s)) ∧
    (s.dec.ovalid = true → exec .decPop s = .next { s with dec := { s.dec with ovalid := false } }) ∧
    (∀ b : Byte, b ≠ 0 → execute (0x00001200 ||| b.setWidth 32) s = .next (recordError .illegal 0x12 s)) ∧
    (BlockInv s → s.dec.ovalid = true → s.dec.busy = false)

/-- R118: DEC.END drops the tail (DROP takes IFILL) and closes the frame, leaving OVALID and the buffers; PHASE before BUSY. -/
def Obligations.DecEndDropsTail : Prop :=
  encode .decEnd = 0x00001300 ∧
  ∀ s : State,
    (s.dec.dactive = false → exec .decEnd s = .next (recordError .phase 0x13 s)) ∧
    (s.dec.dactive = true → s.dec.busy = true → exec .decEnd s = .next (recordError .busy 0x13 s)) ∧
    (s.dec.dactive = true → s.dec.busy = false → exec .decEnd s =
      .next { s with dec := { s.dec with drop := s.dec.ifill, ifill := 0, dactive := false } }) ∧
    (∀ b : Byte, b ≠ 0 → execute (0x00001300 ||| b.setWidth 32) s = .next (recordError .illegal 0x13 s))

/-! ## CRC -/

/-- R141: the byte update, bit by bit: XOR into the low byte, then eight shifts to the right with the polynomial fed back when a
1 falls out. -/
def Obligations.CrcStepIsTheBitRule : Prop :=
  ∀ (c : BitVec 16) (b : BitVec 8),
    crcStep c b =
      (fun (c : BitVec 16) => if c.getLsbD 0 = true then (c >>> 1) ^^^ 0xA001#16 else c >>> 1)^[8] (c ^^^ b.setWidth 16) ∧
    (c ^^^ b.setWidth 16).extractLsb' 8 8 = c.extractLsb' 8 8

/-- R143: CRC.INIT loads the seed and leaves the held verify result; PHASE while a verify is in progress. -/
def Obligations.CrcInitLoadsSeed : Prop :=
  encode .crcInit = 0x00002000 ∧
  ∀ s : State,
    (s.chk.vactive = true → exec .crcInit s = .next (recordError .phase 0x20 s)) ∧
    (s.chk.vactive = false → exec .crcInit s = .next { s with chk := { s.chk with crc := 0xFFFF } }) ∧
    (∀ b : Byte, b ≠ 0 → execute (0x00002000 ||| b.setWidth 32) s = .next (recordError .illegal 0x20 s))

/-- 42_crc.md section 2 (R144, which the spec marks as derived from R141): CRC.BYTE runs one byte update; PHASE while a verify is
in progress. -/
def Obligations.CrcByteUpdatesCrc : Prop :=
  ∀ (b : Byte) (s : State),
    encode (.crcByte b) = 0x00002100 ||| b.setWidth 32 ∧
    (s.chk.vactive = true → exec (.crcByte b) s = .next (recordError .phase 0x21 s)) ∧
    (s.chk.vactive = false →
      exec (.crcByte b) s = .next { s with chk := { s.chk with crc := crcStep s.chk.crc b } })

/-- The residue property of 42_crc.md section 3 (R146, which the spec marks as derived): the CRC of any sequence followed by its own
little-endian CRC is 0. -/
def Obligations.CrcResidueIsZero : Prop :=
  ∀ m : List Byte, crc16 (m ++ [(crc16 m).extractLsb' 0 8, (crc16 m).extractLsb' 8 8]) = 0x0000

/-- 42_crc.md section 3 (R145, which the spec marks as derived): whatever other accesses stand between them (decrypt commands,
KEYn writes, reads, polls, NOP, ERR.CLR, illegal words) and under every order of moves without a reset, once the host has made its
accesses, those of the checksum engine being CRC.INIT and then the data bytes, CRC holds crc16 of the data and the rest of the
checksum engine is as it was. And while only the host moves (log entry 2, the model's choice: also where no move is listed), CRC.INIT
and the data bytes alone complete in one step a command, with no error. -/
def Obligations.CrcCommandsComputeCrc16 : Prop :=
  ∀ (d : List Byte) (s : State), s.chk.vactive = false →
    (s.program.filter HostOp.usesChecksum = cmd .crcInit :: crcBytes d → NoReset s →
      ∀ (n : Nat) (t : State), core.run n s = .next t → t.program = [] → t.chk = { s.chk with crc := crc16 d }) ∧
    (s.program = cmd .crcInit :: crcBytes d → HostOnly (d.length + 1) s → core.run (d.length + 1) s =
      .next { s with program := [], sched := s.sched.drop (d.length + 1), chk := { s.chk with crc := crc16 d } })

/-! ## Verify -/

/-- R161: VER.START writes every element of the checksum engine, in any state, and nothing else. -/
def Obligations.VerStartBeginsVerify : Prop :=
  encode .verStart = 0x00003000 ∧
  ∀ s : State,
    exec .verStart s = .next { s with chk := {
      crc := 0xFFFF
      vactive := true
      vcount := 0
      act := 0x0000
      exp := 0x0000
      vdone := false
      vok := false
      vshort := false } } ∧
    (∀ b : Byte, b ≠ 0 → execute (0x00003000 ||| b.setWidth 32) s = .next (recordError .illegal 0x30 s))

/-- R162: VER.BYTE sends a prefix byte to the CRC, bytes 14 and 15 to the low and the high byte of ACT, ignores later ones, and
counts up to 16; PHASE when no verify is in progress. -/
def Obligations.VerByteFeedsMessage : Prop :=
  ∀ (b : Byte) (s : State),
    encode (.verByte b) = 0x00003100 ||| b.setWidth 32 ∧
    (s.chk.vactive = false → exec (.verByte b) s = .next (recordError .phase 0x31 s)) ∧
    (s.chk.vactive = true → exec (.verByte b) s = .next { s with chk := { s.chk with
      crc := if s.chk.vcount.toNat < 14 then crcStep s.chk.crc b else s.chk.crc
      act :=
        if s.chk.vcount.toNat = 14 then s.chk.act.extractLsb' 8 8 ++ b
        else if s.chk.vcount.toNat = 15 then b ++ s.chk.act.extractLsb' 0 8
        else s.chk.act
      vcount := if s.chk.vcount.toNat < 16 then s.chk.vcount + 1 else 16 } })

/-- R163: VER.END ends the verify, latches EXP and sets the result bits; CRC and ACT stay; a mismatch records nothing. -/
def Obligations.VerEndProducesResult : Prop :=
  encode .verEnd = 0x00003200 ∧
  ∀ s : State,
    (s.chk.vactive = false → exec .verEnd s = .next (recordError .phase 0x32 s)) ∧
    (s.chk.vactive = true → s.chk.vcount.toNat < 16 → exec .verEnd s = .next { s with chk := { s.chk with
      vactive := false
      vdone := true
      exp := s.chk.crc
      vshort := true
      vok := false } }) ∧
    (s.chk.vactive = true → 16 ≤ s.chk.vcount.toNat → exec .verEnd s = .next { s with chk := { s.chk with
      vactive := false
      vdone := true
      exp := s.chk.crc
      vshort := false
      vok := decide (s.chk.crc = s.chk.act) } }) ∧
    (∀ b : Byte, b ≠ 0 → execute (0x00003200 ||| b.setWidth 32) s = .next (recordError .illegal 0x32 s))

/-- R164: how a held result maps to the document's, with "expected" the computed CRC in VRESULT[15:0] and "actual" the trailer in
VRESULT[31:16]; a result is held only when VDONE = 1. (VOK and VSHORT are never both 1 in a state of the invariant.) -/
def Obligations.HeldResultMapsToDocument : Prop :=
  ∀ s : State,
    (BlockInv s → s.chk.vdone = true → s.chk.vok = true → heldResult s.chk = some .ok) ∧
    (s.chk.vdone = true → s.chk.vshort = false → s.chk.vok = false → heldResult s.chk = some (.mismatch
      ((readOffset 0x0C s).extractLsb' 0 16) ((readOffset 0x0C s).extractLsb' 16 16))) ∧
    (s.chk.vdone = true → s.chk.vshort = true → heldResult s.chk = some .short) ∧
    (s.chk.vdone = false → heldResult s.chk = none)

/-- 43_verify.md section 3 (R165 and R167, which the spec marks as derived): under every order of moves without a reset, the message
sequence ends with the document's verify result held, for a message of 16 bytes or more of any length; with no move listed, where
the host moves (log entry 2, the model's choice), it completes in one step a command, with no error and nothing changed in the decrypt
engine. -/
def Obligations.VerifyMessageIsVerify : Prop :=
  ∀ (m : List Byte) (s : State), 16 ≤ m.length → s.program = verMsg m → NoReset s →
    (∀ (n : Nat) (t : State), core.run n s = .next t → t.program = [] →
      t.chk.vactive = false ∧ t.chk.vdone = true ∧ t.chk.vshort = false ∧ t.chk.exp = crc16 (m.take 14) ∧
      t.chk.act = trailer m ∧ (t.chk.vok = true ↔ verify m = .ok) ∧ heldResult t.chk = some (verify m)) ∧
    (s.sched = [] → ∃ t : State, core.run (m.length + 2) s = .next t ∧ t.program = [] ∧ t.err = s.err ∧ t.dec = s.dec)

/-- R168: under every order of moves without a reset, a message that ends with fewer than 16 bytes gives VSHORT = 1 and VOK = 0,
EXP the CRC of the bytes below index 14, ACT the trailer bytes received with a missing one 0x00; and no error is recorded, unless the
cipher fails meanwhile. -/
def Obligations.ShortMessageIsReportedAsData : Prop :=
  ∀ (m : List Byte) (s : State), m.length < 16 → s.program = verMsg m → NoReset s →
    ∀ (n : Nat) (t : State), core.run n s = .next t → t.program = [] →
      t.chk.vactive = false ∧ t.chk.vcount.toNat = m.length ∧ t.chk.vdone = true ∧ t.chk.vshort = true ∧ t.chk.vok = false ∧
      t.chk.exp = crc16 (m.take 14) ∧ t.chk.act = half (m.getD 14 0) (m.getD 15 0) ∧ (NoCipherErr s → t.err = s.err)

/-- R166: verification is diagnostic only. VER.END of a verify in progress records no error whatever the result, and nothing of the
block reads VOK but the register image of STATUS: changing it before any command, any register write (a KEYn write among them), either
cipher response or a reset changes nothing after it but VOK itself, and no register but STATUS reads differently. -/
def Obligations.VerifyResultGatesNothing : Prop :=
  (∀ s : State, s.chk.vactive = true → ∃ t, exec .verEnd s = .next t ∧ t.err = s.err ∧ t.dec = s.dec) ∧
  (∀ (i : Instr) (b : Bool) (s : State),
    onNext (fun t => { t with chk := { t.chk with vok := false } }) (exec i { s with chk := { s.chk with vok := b } }) =
      onNext (fun t => { t with chk := { t.chk with vok := false } }) (exec i s)) ∧
  (∀ (off : Offset) (v : Word) (b : Bool) (s : State),
    onNext (fun t => { t with chk := { t.chk with vok := false } }) (writeOffset off v { s with chk := { s.chk with vok := b } }) =
      onNext (fun t => { t with chk := { t.chk with vok := false } }) (writeOffset off v s)) ∧
  (∀ (n : Fin 4) (v : Word) (b : Bool) (s : State),
    keyWrite n v { s with chk := { s.chk with vok := b } } =
      { keyWrite n v s with chk := { (keyWrite n v s).chk with vok := b } }) ∧
  (∀ (b : Bool) (s : State),
    cipherOkMove { s with chk := { s.chk with vok := b } } =
      onNext (fun t => { t with chk := { t.chk with vok := b } }) (cipherOkMove s) ∧
    cipherErrMove { s with chk := { s.chk with vok := b } } =
      onNext (fun t => { t with chk := { t.chk with vok := b } }) (cipherErrMove s) ∧
    resetBlock { s with chk := { s.chk with vok := b } } = resetBlock s ∧
    ∀ off : Offset, Reg.atOffset off ≠ .status →
      readOffset off { s with chk := { s.chk with vok := b } } = readOffset off s)

/-! ## Cipher port -/

/-- R114: a successful response is a step exactly when BUSY = 1: it puts DECRYPT_BLOCK of the latched request in OBUF (byte i from
bits [8i+7:8i] of `rsp_block`), sets OVALID, clears BUSY, counts the block modulo 2^16 and drops the request; nothing else changes. -/
def Obligations.CipherOkDeliversBlock : Prop :=
  ∀ (s : State), s.sched.head? = some .cipherOk →
    (s.dec.busy = false → step s = .next { s with sched := s.sched.tail }) ∧
    (∀ r : Request, s.dec.busy = true → s.dec.req = some r →
      step s = .next { s with
        sched := s.sched.tail
        dec := { s.dec with
          obuf := Config.decryptBlock r.key r.blk
          ovalid := true
          busy := false
          blkcnt := BitVec.ofNat 16 ((s.dec.blkcnt.toNat + 1) % 2 ^ 16)
          req := none } } ∧
      ∃ rsp, rspBlock s = some rsp ∧
        ∀ (i : Nat) (h : i < 16), rsp.extractLsb' (8 * i) 8 = (Config.decryptBlock r.key r.blk)[i])

/-- R115: with BUSY = 1 and CIPHER_MAY_FAIL, a failing response ends the frame and records CIPHER with ERROPC 0x00, leaving OBUF,
OVALID, BLKCNT and DROP; the successful response is possible in the same state. Where CIPHER_MAY_FAIL is false there is no such
step (log entry 6: the move then changes nothing). -/
def Obligations.CipherErrAbandonsFrame : Prop :=
  ∀ (s : State) (ms : List Move), s.dec.busy = true →
    step { s with sched := .cipherErr :: ms } =
      .next (if Config.cipherMayFail = true then
        recordError .cipher 0x00 { s with
          sched := ms
          dec := { s.dec with busy := false, req := none, dactive := false, ifill := 0 } }
      else { s with sched := ms }) ∧
    (BlockInv s → ∃ t, step { s with sched := .cipherOk :: ms } = .next t ∧ t.dec.busy = false ∧ t.dec.ovalid = true)

/-- R116: a response when BUSY = 0 is ignored and changes no state of the block. -/
def Obligations.IdleResponsesAreIgnored : Prop :=
  ∀ (s : State), s.dec.busy = false → (s.sched.head? = some .cipherOk ∨ s.sched.head? = some .cipherErr) →
    step s = .next { s with sched := s.sched.tail }

/-- R191 and R113: `req_valid` is BUSY, byte i of `req_block`, `req_key` and of the response is at bits [8i+7:8i], and a successful
response puts byte i of `rsp_block` in OBUF[i]. -/
def Obligations.PortCarriesByteIAtBits8I : Prop :=
  ∀ (s : State) (r : Request), s.dec.req = some r → s.dec.busy = true →
    reqValid s = true ∧
    ∃ blk key rsp, reqBlock s = some blk ∧ reqKey s = some key ∧ rspBlock s = some rsp ∧
      ∃ t, cipherOkMove s = .next t ∧
        ∀ (i : Nat) (h : i < 16),
          blk.extractLsb' (8 * i) 8 = r.blk[i] ∧ key.extractLsb' (8 * i) 8 = r.key[i] ∧
          rsp.extractLsb' (8 * i) 8 = t.dec.obuf[i]

/-! ## Register window -/

/-- R51: an aligned 32-bit read returns ReadReg of its offset and changes no state; the images of R51 field by field. -/
def Obligations.HostReadReturnsRegister : Prop :=
  (∀ (s : State) (off : Offset) (rest : List HostOp),
    HostMoves s → s.program = .read (.window off) .word :: rest → off.toNat % 4 = 0 →
      step s = .next { s.afterFetch rest with reads := s.reads ++ [(off, readOffset off s)] }) ∧
  (∀ s : State,
    readOffset 0x00 s = 0x00000000 ∧
    readOffset 0x04 s = 0#15 ++ (s.chk.vcount ++ (s.dec.ifill ++ (BitVec.ofBool (s.err.code != 0) ++
      (BitVec.ofBool s.chk.vshort ++ (BitVec.ofBool s.chk.vok ++ (BitVec.ofBool s.chk.vdone ++
      (BitVec.ofBool s.chk.vactive ++ (BitVec.ofBool s.dec.dactive ++ (BitVec.ofBool s.dec.ovalid ++
        BitVec.ofBool s.dec.busy))))))))) ∧
    readOffset 0x08 s = s.chk.crc.setWidth 32 ∧
    readOffset 0x0C s = s.chk.act ++ s.chk.exp ∧
    readOffset 0x10 s = 0#12 ++ (s.dec.drop ++ s.dec.blkcnt) ∧
    readOffset 0x14 s = BitVec.ofBool s.err.multi ++ (0#15 ++ (s.err.opc ++ (0#4 ++ s.err.code))) ∧
    readOffset 0x18 s = 0x00000000 ∧ readOffset 0x1C s = 0x00000000 ∧
    (∀ (n : Nat) (h : n < 4),
      readOffset (BitVec.ofNat 6 (0x20 + 4 * n)) s =
        s.dec.key[4 * n + 3] ++ (s.dec.key[4 * n + 2] ++ (s.dec.key[4 * n + 1] ++ s.dec.key[4 * n])) ∧
      readOffset (BitVec.ofNat 6 (0x30 + 4 * n)) s =
        s.dec.obuf[4 * n + 3] ++ (s.dec.obuf[4 * n + 2] ++ (s.dec.obuf[4 * n + 1] ++ s.dec.obuf[4 * n]))))

/-- R44 to R48: every field of STATUS, CRC, VRESULT, DCOUNT and ERR at its bits, and the reserved bits reading 0. -/
def Obligations.RegisterFieldsAtTheirBits : Prop :=
  ∀ s : State,
    (readOffset 0x04 s).getLsbD 0 = s.dec.busy ∧ (readOffset 0x04 s).getLsbD 1 = s.dec.ovalid ∧
    (readOffset 0x04 s).getLsbD 2 = s.dec.dactive ∧ (readOffset 0x04 s).getLsbD 3 = s.chk.vactive ∧
    (readOffset 0x04 s).getLsbD 4 = s.chk.vdone ∧ (readOffset 0x04 s).getLsbD 5 = s.chk.vok ∧
    (readOffset 0x04 s).getLsbD 6 = s.chk.vshort ∧ ((readOffset 0x04 s).getLsbD 7 = true ↔ s.err.code ≠ 0) ∧
    (readOffset 0x04 s).extractLsb' 8 4 = s.dec.ifill ∧ (readOffset 0x04 s).extractLsb' 12 5 = s.chk.vcount ∧
    (readOffset 0x04 s).extractLsb' 17 15 = 0 ∧
    (readOffset 0x08 s).extractLsb' 0 16 = s.chk.crc ∧ (readOffset 0x08 s).extractLsb' 16 16 = 0 ∧
    (readOffset 0x0C s).extractLsb' 0 16 = s.chk.exp ∧ (readOffset 0x0C s).extractLsb' 16 16 = s.chk.act ∧
    (readOffset 0x10 s).extractLsb' 0 16 = s.dec.blkcnt ∧ (readOffset 0x10 s).extractLsb' 16 4 = s.dec.drop ∧
    (readOffset 0x10 s).extractLsb' 20 12 = 0 ∧
    (readOffset 0x14 s).extractLsb' 0 4 = s.err.code ∧ (readOffset 0x14 s).extractLsb' 4 4 = 0 ∧
    (readOffset 0x14 s).extractLsb' 8 8 = s.err.opc ∧ (readOffset 0x14 s).extractLsb' 16 15 = 0 ∧
    (readOffset 0x14 s).getLsbD 31 = s.err.multi

/-- R49: byte 4n+k of KEY is bits [8k+7:8k] of KEYn and byte 4n+k of OBUF those of OUTn, with R49's example. -/
def Obligations.KeyAndOutBytesAreLittleEndian : Prop :=
  (∀ (s : State) (n k : Nat) (hn : n < 4) (hk : k < 4),
    (readOffset (BitVec.ofNat 6 (0x20 + 4 * n)) s).extractLsb' (8 * k) 8 = s.dec.key[4 * n + k] ∧
    (readOffset (BitVec.ofNat 6 (0x30 + 4 * n)) s).extractLsb' (8 * k) 8 = s.dec.obuf[4 * n + k]) ∧
  (∀ s : State,
    s.dec.key = #v[0x00, 0x01, 0x02, 0x03, 0x04, 0x05, 0x06, 0x07, 0x08, 0x09, 0x0A, 0x0B, 0x0C, 0x0D, 0x0E, 0x0F] →
    readOffset 0x20 s = 0x03020100 ∧ readOffset 0x2C s = 0x0F0E0D0C)

/-- R58: a read of any offset changes no state of the block, and a second read made next returns the same value. -/
def Obligations.ReadsHaveNoSideEffects : Prop :=
  ∀ (s t : State) (off : Offset) (rest : List HostOp),
    HostMoves s → s.program = .read (.window off) .word :: rest → step s = .next t →
      SameBlock s t ∧ t.program = rest ∧ (∀ off', readOffset off' t = readOffset off' s) ∧
      (∀ rest', rest = .read (.window off) .word :: rest' → HostMoves t →
        ∃ v u, t.reads = s.reads ++ [(off, v)] ∧ step t = .next u ∧ u.reads = s.reads ++ [(off, v), (off, v)])

/-- R55 and R56: a write to STATUS, CRC, VRESULT, DCOUNT, ERR, OUT0 to OUT3 or to an unmapped offset has no effect and records no
error; a read of CMD or of an unmapped offset returns 0. -/
def Obligations.ReadOnlyAndUnmappedIgnoreWrites : Prop :=
  ∀ (s : State) (v : Word),
    (∀ off ∈ [(0x04 : Offset), 0x08, 0x0C, 0x10, 0x14, 0x18, 0x1C, 0x30, 0x34, 0x38, 0x3C],
      hostAccess (.write (.window off) .word v) s = .next s) ∧
    readOffset 0x00 s = 0x00000000 ∧ readOffset 0x18 s = 0x00000000 ∧ readOffset 0x1C s = 0x00000000

/-- R57: a KEYn write replaces bytes 4n to 4n+3 of KEY, little-endian, and nothing else; while a frame is open it is dropped and
records KEYLOCK, code 5, with ERROPC = 0x00. -/
def Obligations.KeyWriteLoadsFourBytes : Prop :=
  ∀ (s : State) (n : Nat) (v : Word), n < 4 →
    (s.dec.dactive = true → hostAccess (.write (.window (BitVec.ofNat 6 (0x20 + 4 * n))) .word v) s =
      .next (recordError .keylock 0x00 s)) ∧
    (s.dec.dactive = false → ∃ key : Block,
      hostAccess (.write (.window (BitVec.ofNat 6 (0x20 + 4 * n))) .word v) s =
        .next { s with dec := { s.dec with key := key } } ∧
      ∀ (i : Nat) (h : i < 16), key[i] = if i / 4 = n then v.extractLsb' (8 * (i % 4)) 8 else s.dec.key[i]) ∧
    (BlockInv s → s.dec.busy = true → s.dec.dactive = true)

/-- R54: in the window the block answers exactly the 32-bit accesses at multiples of 4, and an answered one always completes; an 8-bit,
16-bit or misaligned one is refused, by name, whatever its direction. -/
def Obligations.AnsweredExactlyWhenAlignedWord : Prop :=
  ∀ (off : Offset) (size : AccessSize) (mask v : Word) (s : State),
    (size = .word → off.toNat % 4 = 0 →
      (∃ t, hostAccess (.read (.window off) size) s = .next t) ∧
      (∃ t, hostAccess (.write (.window off) size v) s = .next t) ∧
      (∃ t, hostAccess (.poll off mask v) s = .next t)) ∧
    ((size ≠ .word ∨ off.toNat % 4 ≠ 0) →
      hostAccess (.read (.window off) size) s = .refused .accessNotAnswered ∧
      hostAccess (.write (.window off) size v) s = .refused .accessNotAnswered) ∧
    (off.toNat % 4 ≠ 0 → hostAccess (.poll off mask v) s = .refused .accessNotAnswered)

/-- R60 with R8 and R50: the block decodes exactly `[BASE, BASE+0x40)`, BASE a multiple of 4; an access elsewhere changes nothing of
the block (the model gives it no other effect, log entry 10). The model's choice (log entry 23), left open between R54 and R60: an
access is decoded by the address it starts at, so one that starts just below BASE and reaches into the window counts as elsewhere. -/
def Obligations.OutsideWindowNotDecoded : Prop :=
  Config.base % 4 = 0 ∧
  ∀ (base addr : Nat) (size : AccessSize) (v : Word) (s : State),
    (∀ off, off < 64 → Target.ofAddr base (base + off) = .window (BitVec.ofNat 6 off)) ∧
    ((addr < base ∨ base + 64 ≤ addr) →
      hostAccess (.read (Target.ofAddr base addr) size) s = .next s ∧
      hostAccess (.write (Target.ofAddr base addr) size v) s = .next s)

/-! ## Reset -/

/-- R211: reset sets every element of the block to its reset value, from every state and whatever is outstanding, so that a response to
an abandoned request is then ignored. -/
def Obligations.ResetSetsEveryElement : Prop :=
  ∀ s : State, s.sched.head? = some .reset → ∃ t, step s = .next t ∧
    t.dec = {
      key := Vector.replicate 16 0x00
      ibuf := Vector.replicate 16 0x00
      ifill := 0
      busy := false
      req := none
      obuf := Vector.replicate 16 0x00
      ovalid := false
      dactive := false
      blkcnt := 0
      drop := 0 } ∧
    t.chk = {
      crc := 0xFFFF
      vactive := false
      vcount := 0
      act := 0x0000
      exp := 0x0000
      vdone := false
      vok := false
      vshort := false } ∧
    t.err = { code := 0, opc := 0x00, multi := false } ∧
    cipherOkMove t = .next t ∧ cipherErrMove t = .next t

/-- 70_reset_and_hazards.md section 1 (the table of R212, which the spec marks as derived): what the host reads after reset. -/
def Obligations.ResetValuesAsTheHostReads : Prop :=
  ∀ off : Offset, readOffset off State.reset = if off = 0x08 then 0x0000FFFF else 0x00000000

/-! ## The whole machine -/

/-- The invariant of 10_state.md section 6 (R41, which the spec marks as derived) holds at reset. -/
def Obligations.InvariantAtReset : Prop := BlockInv State.reset

/-- Every step of every agent keeps the invariant of 10_state.md section 6, from every state that has it. -/
def Obligations.StepKeepsInvariant : Prop :=
  ∀ s t : State, BlockInv s → step s = .next t → BlockInv t

/-- From every state of the invariant the machine goes on: no step faults, and only a host access that R54 refuses is refused. These
answers are the model's choices: the host's move with its program ended (log entry 4), a response with BUSY = 0 (log entry 5), a
failing one where CIPHER_MAY_FAIL is false (log entry 6) and an access outside the window (log entry 10), one that starts just below
BASE and reaches into it included (log entry 23), are steps that change nothing of the block; where no move is listed the host moves
(log entry 2); and a refused access refuses the whole step (log entry 9). -/
def Obligations.InvariantStatesGoOn : Prop :=
  ∀ s : State, BlockInv s →
    (∃ t, step s = .next t) ∨
    (step s = .refused .accessNotAnswered ∧ HostMoves s ∧ ∃ op rest, s.program = op :: rest ∧ op.wellFormed = false)

/-- 20_memory.md section 5 and R21: KEY changes only by a KEYn write made while no frame is open, or by reset. -/
def Obligations.KeyFixedWhileFrameOpen : Prop :=
  ∀ s t : State, step s = .next t → t.dec.key ≠ s.dec.key →
    s.sched.head? = some .reset ∨
    (s.dec.dactive = false ∧ HostMoves s ∧
      ∃ off v rest n, s.program = .write (.window off) .word v :: rest ∧ Reg.atOffset off = .key n)

/-- 70_reset_and_hazards.md section 2 (R222, which the spec marks as derived) and R26: OBUF changes only by a successful response or
reset, and while OVALID = 1, in a state of the invariant, by reset alone. -/
def Obligations.OutputStableWhileValid : Prop :=
  ∀ s t : State, step s = .next t → t.dec.obuf ≠ s.dec.obuf →
    s.sched.head? = some .reset ∨ (s.sched.head? = some .cipherOk ∧ s.dec.busy = true ∧ (BlockInv s → s.dec.ovalid = false))

/-- 60_exceptions.md section 7 (R194) and R24: once set, BUSY is cleared only by a cipher response or by reset; no host access clears
it. -/
def Obligations.BusyClearedOnlyByResponseOrReset : Prop :=
  ∀ s t : State, step s = .next t → s.dec.busy = true → t.dec.busy = false →
    s.sched.head? = some .cipherOk ∨ (s.sched.head? = some .cipherErr ∧ Config.cipherMayFail = true) ∨
      s.sched.head? = some .reset

/-- 92_eei_decisions.md D32: the two engines share no state. A decrypt command does to any checksum engine what it does to none, and a
checksum command to any decrypt engine: the other engine neither changes nor is read. -/
def Obligations.EnginesAreIndependent : Prop :=
  ∀ (i : Instr) (s : State) (c : Checker) (d : Decryptor),
    (decryptCommand i = true →
      exec i { s with chk := c } = onNext (fun t => { t with chk := c }) (exec i s)) ∧
    (checksumCommand i = true →
      exec i { s with dec := d } = onNext (fun t => { t with dec := d }) (exec i s))

/-- R230: in a quiescent state only a host access or a reset changes the block: whatever the cipher does, and however often the host has
nothing to do. (That such a move is a step that changes nothing is the model's choice: log entries 4, 5 and 6.) -/
def Obligations.QuiescentStateStays : Prop :=
  ∀ (n : Nat) (s : State), Quiescent s → NoReset s → ∃ t : State, core.run n s = .next t ∧ SameBlock s t ∧ Quiescent t

/-- R194 and R229: while the cipher does not answer, WAIT.IDLE never ends, and nothing of the block changes. (That the host moves where
no move is listed is the model's choice: log entry 2.) -/
def Obligations.WaitIdleSpinsUnanswered : Prop :=
  ∀ (n : Nat) (s : State) (rest : List HostOp), s.dec.busy = true → s.program = waitIdle :: rest →
    (∀ m ∈ s.sched, m = .host) →
    ∃ t : State, core.run n s = .next t ∧ t.program = waitIdle :: rest ∧ SameBlock s t

/-- 41_decrypt.md section 3 and 30_encoding.md section 4: WAIT.IDLE ends with the first poll after the response, however many polls came
before, with the block delivered. (The poll after the response is made where no move is listed any more: log entry 2, the model's
choice.) -/
def Obligations.WaitIdleEndsOnceAnswered : Prop :=
  ∀ (k : Nat) (s : State) (r : Request) (rest : List HostOp), s.dec.busy = true → s.dec.req = some r →
    s.program = waitIdle :: rest → s.sched = List.replicate k .host ++ [.cipherOk] →
    ∃ t : State, core.run (k + 2) s = .next t ∧ t.program = rest ∧ t.dec.busy = false ∧ t.dec.ovalid = true ∧
      t.dec.obuf = Config.decryptBlock r.key r.blk ∧ t.err = s.err ∧ t.chk = s.chk

/-- 41_decrypt.md section 5 (R119, which the spec marks as derived): whatever IBUF, the counters and the rest of the machine hold,
whatever accesses stand between them that neither run a decrypt command nor write KEY, and under every order of moves without a
reset, once the host has fed the 16 bytes of a chunk, the request for them is their bytes and KEY and nothing else; it is still
outstanding, or has been answered by the block DECRYPT_BLOCK gives for it, or has failed where the port can fail. And while only the
host moves (log entry 2, the model's choice: also where no move is listed), sixteen DEC.BYTEs alone complete in one step each. -/
def Obligations.RequestDependsOnlyOnItsChunk : Prop :=
  ∀ (bs : List Byte) (s : State), bs.length = 16 → s.dec.dactive = true → s.dec.busy = false → s.dec.ovalid = false →
    s.dec.ifill = 0 →
    (s.program.filter HostOp.usesDecrypt = decFeed bs → NoReset s →
      ∀ (n : Nat) (t : State), core.run n s = .next t → t.program = [] →
        t.dec = { s.dec with
          ibuf := chunk bs 0
          req := some { blk := chunk bs 0, key := s.dec.key }
          busy := true } ∨
        t.dec = { s.dec with
          ibuf := chunk bs 0
          req := none
          ovalid := true
          obuf := Config.decryptBlock s.dec.key (chunk bs 0)
          blkcnt := s.dec.blkcnt + 1 } ∨
        (Config.cipherMayFail = true ∧ Move.cipherErr ∈ s.sched ∧
          t.dec = { s.dec with
            ibuf := chunk bs 0
            req := none
            dactive := false })) ∧
    (s.program = decFeed bs → HostOnly 16 s →
      core.run 16 s = .next { s with
        program := []
        sched := s.sched.drop 16
        dec := { s.dec with
          ibuf := chunk bs 0
          req := some { blk := chunk bs 0, key := s.dec.key }
          busy := true } })

/-- 41_decrypt.md section 5 (R120, which the spec marks as derived): the host sequence of R120, under every order of host moves and
successful cipher responses and after any number of steps that used the sequence up, has recorded no error, has read from OUT0 to OUT3
exactly the blocks of decrypt(f, KEY) in order, and leaves the counters and flags as R120 says, KEY and the checksum engine unchanged. -/
def Obligations.FrameSequenceIsDecrypt : Prop :=
  ∀ (f : List Byte) (s t : State) (n : Nat), s.dec.busy = false → s.program = frameProgram f →
    NoReset s → NoCipherErr s → core.run n s = .next t → t.program = [] →
    t.err = s.err ∧ t.chk = s.chk ∧ t.dec.key = s.dec.key ∧
    outReads t.reads = outReads s.reads ++ (decryptBlocks f s.dec.key).flatMap blockReads ∧
    t.dec.blkcnt = BitVec.ofNat 16 (f.length / 16) ∧ t.dec.drop = BitVec.ofNat 4 (f.length % 16) ∧
    t.dec.dactive = false ∧ t.dec.ifill = 0 ∧ t.dec.ovalid = false ∧ t.dec.busy = false

/-- 41_decrypt.md section 5 with R229: the sequence of R120 does complete, from every state with no request outstanding, under some
order of host moves and successful responses. -/
def Obligations.FrameSequenceCompletes : Prop :=
  ∀ (f : List Byte) (s : State), s.dec.busy = false → s.program = frameProgram f →
    ∃ (ms : List Move) (n : Nat) (t : State), (∀ m ∈ ms, m = .host ∨ m = .cipherOk) ∧
      core.run n { s with sched := ms } = .next t ∧ t.program = []

/-- 95_test_vectors.md S2 and R110: decrypt gives 16 * floor(len/16) bytes, a trailing partial chunk being omitted, and for a frame made
by encrypting blocks with R13's ENCRYPT_BLOCK it gives the blocks back (S1). -/
def Obligations.DecryptInvertsEncryptedFrames : Prop :=
  (∀ (f : List Byte) (key : Block), (decrypt f key).length = 16 * (f.length / 16)) ∧
  (∀ (bs : List Block) (tail : List Byte) (key : Block), tail.length < 16 →
    decrypt ((bs.flatMap fun b => (Config.encryptBlock key b).toList) ++ tail) key = bs.flatMap Vector.toList)

/-- 43_verify.md section 3 (R165 and R168): while only the host moves (log entry 2, the model's choice: also where no move is
listed), the message sequence of any message, short ones included, completes in one step a command, holding the message's result,
with no error and nothing changed outside the checksum engine. -/
def Obligations.VerifySequenceCompletes : Prop :=
  ∀ (m : List Byte) (s : State), s.program = verMsg m → HostOnly (m.length + 2) s →
    ∃ t : State, core.run (m.length + 2) s = .next t ∧ t.program = [] ∧ t.sched = s.sched.drop (m.length + 2) ∧
      t.reads = s.reads ∧ t.err = s.err ∧ t.dec = s.dec ∧ heldResult t.chk = some (verify m)
end

