-- ==== Sys2Proof/Laws/Aes.lean ====
section
/-! SUPPORT. AES-128 encryption loses nothing under any key, so that `CipherAgreesWithAes` asks of the cipher only what some family of
permutations meets; and what DECRYPT_BLOCK is under that premise. -/

namespace Sys2Proof.Machine

/-- The sixteen byte numbers of a block. -/
theorem lt_sixteen {i : Nat} (h : i < 16) : i = 0 ∨ i = 1 ∨ i = 2 ∨ i = 3 ∨ i = 4 ∨ i = 5 ∨ i = 6 ∨ i = 7 ∨ i = 8 ∨ i = 9 ∨
    i = 10 ∨ i = 11 ∨ i = 12 ∨ i = 13 ∨ i = 14 ∨ i = 15 := by omega

@[simp] theorem bytes16_getElem (f : Fin 16 → Byte) (i : Nat) (h : i < 16) : (bytes16 f)[i] = f ⟨i, h⟩ := by
  rcases lt_sixteen h with rfl | rfl | rfl | rfl | rfl | rfl | rfl | rfl | rfl | rfl | rfl | rfl | rfl | rfl | rfl | rfl <;> rfl

set_option maxRecDepth 4000 in
/-- Every byte is the substitution of one. -/
theorem aesSub_surjective : Function.Surjective aesSub := by
  have mask : ∀ (l : List Nat) (acc : Nat) (y : Nat),
      (l.foldl (fun m n => m ||| 1 <<< (aesSub (BitVec.ofNat 8 n)).toNat) acc).testBit y = true →
        acc.testBit y = true ∨ ∃ n ∈ l, (aesSub (BitVec.ofNat 8 n)).toNat = y := by
    intro l
    induction l with
    | nil => intro acc y h; exact .inl h
    | cons n l ih =>
      intro acc y h
      rcases ih _ y h with h | ⟨k, hk, e⟩
      · rw [Nat.testBit_or, Bool.or_eq_true] at h
        rcases h with h | h
        · exact .inl h
        · rw [Nat.one_shiftLeft, Nat.testBit_two_pow] at h
          exact .inr ⟨n, by simp, by simpa using h⟩
      · exact .inr ⟨k, by simp [hk], e⟩
  have all : (List.range 256).foldl (fun m n => m ||| 1 <<< (aesSub (BitVec.ofNat 8 n)).toNat) 0 = 2 ^ 256 - 1 := by decide
  intro y
  rcases mask (List.range 256) 0 y.toNat (by rw [all, Nat.testBit_two_pow_sub_one]; simpa using y.isLt) with h | ⟨n, _, e⟩
  · simp at h
  · exact ⟨_, BitVec.eq_of_toNat_eq e⟩

/-- No two bytes have one substitution. -/
theorem aesSub_injective : Function.Injective aesSub := Finite.injective_iff_surjective.2 aesSub_surjective

/-- Doubling is linear. -/
theorem aesDouble_xor (a b : Byte) : aesDouble (a ^^^ b) = aesDouble a ^^^ aesDouble b := by
  unfold aesDouble
  rw [BitVec.getLsbD_xor, BitVec.shiftLeft_xor_distrib]
  cases a.getLsbD 7 <;> cases b.getLsbD 7 <;> simp [BitVec.xor_assoc, BitVec.xor_comm (b <<< 1)]

/-- Mixing a column four times gives it back. -/
theorem aesMix_four (a b c d : Byte) :
    let f := fun v : Byte × Byte × Byte × Byte =>
      (aesMix v.1 v.2.1 v.2.2.1 v.2.2.2, aesMix v.2.1 v.2.2.1 v.2.2.2 v.1, aesMix v.2.2.1 v.2.2.2 v.1 v.2.1,
        aesMix v.2.2.2 v.1 v.2.1 v.2.2.1)
    f (f (f (f (a, b, c, d)))) = (a, b, c, d) := by
  have two : ∀ a b c d : Byte, aesMix (aesMix a b c d) (aesMix b c d a) (aesMix c d a b) (aesMix d a b c) =
      aesDouble (aesDouble a) ^^^ a ^^^ aesDouble (aesDouble c) := by
    intro a b c d
    simp only [aesMix, aesDouble_xor]
    apply BitVec.eq_of_getLsbD_eq
    intro i _
    simp only [BitVec.getLsbD_xor]
    generalize (aesDouble (aesDouble a)).getLsbD i = x1
    generalize (aesDouble (aesDouble b)).getLsbD i = x2
    generalize (aesDouble (aesDouble c)).getLsbD i = x3
    generalize (aesDouble a).getLsbD i = x4
    generalize (aesDouble b).getLsbD i = x5
    generalize (aesDouble c).getLsbD i = x6
    generalize (aesDouble d).getLsbD i = x7
    generalize a.getLsbD i = x8
    generalize b.getLsbD i = x9
    generalize c.getLsbD i = x10
    generalize d.getLsbD i = x11
    revert x1 x2 x3 x4 x5 x6 x7 x8 x9 x10 x11
    decide
  have four : ∀ a c : Byte, aesDouble (aesDouble (aesDouble (aesDouble a) ^^^ a ^^^ aesDouble (aesDouble c))) ^^^
      (aesDouble (aesDouble a) ^^^ a ^^^ aesDouble (aesDouble c)) ^^^
      aesDouble (aesDouble (aesDouble (aesDouble c) ^^^ c ^^^ aesDouble (aesDouble a))) = a := by
    intro a c
    simp only [aesDouble_xor]
    apply BitVec.eq_of_getLsbD_eq
    intro i _
    simp only [BitVec.getLsbD_xor]
    generalize (aesDouble (aesDouble (aesDouble (aesDouble a)))).getLsbD i = x1
    generalize (aesDouble (aesDouble (aesDouble (aesDouble c)))).getLsbD i = x2
    generalize (aesDouble (aesDouble a)).getLsbD i = x3
    generalize (aesDouble (aesDouble c)).getLsbD i = x4
    generalize a.getLsbD i = x5
    revert x1 x2 x3 x4 x5
    decide
  simp only [two, four]

/-- Equal mixed columns come from equal columns. -/
theorem aesMix_inj {a b c d a' b' c' d' : Byte} (h1 : aesMix a b c d = aesMix a' b' c' d')
    (h2 : aesMix b c d a = aesMix b' c' d' a') (h3 : aesMix c d a b = aesMix c' d' a' b')
    (h4 : aesMix d a b c = aesMix d' a' b' c') : a = a' ∧ b = b' ∧ c = c' ∧ d = d' := by
  have e := aesMix_four a b c d
  have e' := aesMix_four a' b' c' d'
  simp only [h1, h2, h3, h4] at e
  have := e.symm.trans e'
  simpa using this

theorem aesSubBytes_injective : Function.Injective aesSubBytes := by
  intro a b h
  refine Vector.ext fun i hi => aesSub_injective ?_
  have := congrArg (fun v : Block => v[i]) h
  simpa [aesSubBytes] using this

theorem aesAddKey_injective (key : Block) : Function.Injective fun a => aesAddKey a key := by
  intro a b h
  refine Vector.ext fun i hi => ?_
  have := congrArg (fun v : Block => v[i]) h
  simpa [aesAddKey] using this

theorem aesShiftRows_injective : Function.Injective aesShiftRows := by
  intro a b h
  have e : ∀ (i : Nat) (hi : i < 16), (aesShiftRows a)[i] = (aesShiftRows b)[i] := fun i _ => by rw [h]
  refine Vector.ext fun i hi => ?_
  rcases lt_sixteen hi with rfl | rfl | rfl | rfl | rfl | rfl | rfl | rfl | rfl | rfl | rfl | rfl | rfl | rfl | rfl | rfl
  exacts [e 0 (by omega), e 13 (by omega), e 10 (by omega), e 7 (by omega), e 4 (by omega), e 1 (by omega), e 14 (by omega),
    e 11 (by omega), e 8 (by omega), e 5 (by omega), e 2 (by omega), e 15 (by omega), e 12 (by omega), e 9 (by omega),
    e 6 (by omega), e 3 (by omega)]

theorem aesMixColumns_injective : Function.Injective aesMixColumns := by
  intro a b h
  have e : ∀ (i : Nat) (hi : i < 16), (aesMixColumns a)[i] = (aesMixColumns b)[i] := fun i _ => by rw [h]
  obtain ⟨e0, e1, e2, e3⟩ := aesMix_inj (e 0 (by omega)) (e 1 (by omega)) (e 2 (by omega)) (e 3 (by omega))
  obtain ⟨e4, e5, e6, e7⟩ := aesMix_inj (e 4 (by omega)) (e 5 (by omega)) (e 6 (by omega)) (e 7 (by omega))
  obtain ⟨e8, e9, e10, e11⟩ := aesMix_inj (e 8 (by omega)) (e 9 (by omega)) (e 10 (by omega)) (e 11 (by omega))
  obtain ⟨e12, e13, e14, e15⟩ := aesMix_inj (e 12 (by omega)) (e 13 (by omega)) (e 14 (by omega)) (e 15 (by omega))
  refine Vector.ext fun i hi => ?_
  rcases lt_sixteen hi with rfl | rfl | rfl | rfl | rfl | rfl | rfl | rfl | rfl | rfl | rfl | rfl | rfl | rfl | rfl | rfl <;> assumption

/-- No two blocks have one encryption under a key. -/
theorem aes128_injective (key : Block) : Function.Injective (aes128 key) := by
  have rounds : ∀ (n : Nat) (rcon : Byte) (key : Block), Function.Injective (aesRounds n rcon key) := by
    intro n
    induction n with
    | zero =>
      intro rcon key a b h
      exact aesSubBytes_injective (aesShiftRows_injective (aesAddKey_injective _ h))
    | succ n ih =>
      intro rcon key a b h
      exact aesSubBytes_injective (aesShiftRows_injective (aesMixColumns_injective (aesAddKey_injective _ (ih _ _ h))))
  intro a b h
  exact aesAddKey_injective key (rounds 9 1 key h)

/-- Some family of permutations is AES-128, so the premise `CipherAgreesWithAes` contradicts nothing stated of the cipher (R13). -/
theorem exists_aes_cipher : ∃ cipher : Block → Equiv.Perm Block, ∀ key blk, cipher key blk = aes128 key blk := by
  have : Finite Block := Finite.of_injective (fun a : Block => fun i : Fin 16 => a[i]) fun a b h =>
    Vector.ext fun i hi => congrFun h ⟨i, hi⟩
  exact ⟨fun key => Equiv.ofBijective (aes128 key) (Finite.injective_iff_bijective.1 (aes128_injective key)), fun _ _ => rfl⟩

/-- What DECRYPT_BLOCK is of a cipher that is AES: the block whose AES-128 encryption it is given (R13). -/
theorem decryptBlock_eq_of_aes (h : CipherAgreesWithAes) {key plain secret : Block} (e : aes128 key plain = secret) :
    Config.decryptBlock key secret = plain := by
  rw [← e, ← h, Config.decryptBlock_encryptBlock]

end Sys2Proof.Machine
end

