-- ==== Sys2Proof/Laws/Engines.lean ====
section
/-! SUPPORT. One lemma per field for each update of an engine: the frame commands of 41_decrypt.md, the cipher port, and the verify commands of 43_verify.md. -/

namespace Sys2Proof.Machine

@[simp] theorem openFrame_key (d : Decryptor) : (openFrame d).key = d.key := rfl
@[simp] theorem openFrame_ibuf (d : Decryptor) : (openFrame d).ibuf = d.ibuf := rfl
@[simp] theorem openFrame_ifill (d : Decryptor) : (openFrame d).ifill = 0 := rfl
@[simp] theorem openFrame_busy (d : Decryptor) : (openFrame d).busy = d.busy := rfl
@[simp] theorem openFrame_req (d : Decryptor) : (openFrame d).req = d.req := rfl
@[simp] theorem openFrame_obuf (d : Decryptor) : (openFrame d).obuf = d.obuf := rfl
@[simp] theorem openFrame_ovalid (d : Decryptor) : (openFrame d).ovalid = false := rfl
@[simp] theorem openFrame_dactive (d : Decryptor) : (openFrame d).dactive = true := rfl
@[simp] theorem openFrame_blkcnt (d : Decryptor) : (openFrame d).blkcnt = 0 := rfl
@[simp] theorem openFrame_drop (d : Decryptor) : (openFrame d).drop = 0 := rfl

@[simp] theorem closeFrame_key (d : Decryptor) : (closeFrame d).key = d.key := rfl
@[simp] theorem closeFrame_ibuf (d : Decryptor) : (closeFrame d).ibuf = d.ibuf := rfl
@[simp] theorem closeFrame_ifill (d : Decryptor) : (closeFrame d).ifill = 0 := rfl
@[simp] theorem closeFrame_busy (d : Decryptor) : (closeFrame d).busy = d.busy := rfl
@[simp] theorem closeFrame_req (d : Decryptor) : (closeFrame d).req = d.req := rfl
@[simp] theorem closeFrame_obuf (d : Decryptor) : (closeFrame d).obuf = d.obuf := rfl
@[simp] theorem closeFrame_ovalid (d : Decryptor) : (closeFrame d).ovalid = d.ovalid := rfl
@[simp] theorem closeFrame_dactive (d : Decryptor) : (closeFrame d).dactive = false := rfl
@[simp] theorem closeFrame_blkcnt (d : Decryptor) : (closeFrame d).blkcnt = d.blkcnt := rfl
@[simp] theorem closeFrame_drop (d : Decryptor) : (closeFrame d).drop = d.ifill := rfl

@[simp] theorem cipherIssue_key (b k : Block) (d : Decryptor) : (cipherIssue b k d).key = d.key := rfl
@[simp] theorem cipherIssue_ibuf (b k : Block) (d : Decryptor) : (cipherIssue b k d).ibuf = d.ibuf := rfl
@[simp] theorem cipherIssue_ifill (b k : Block) (d : Decryptor) : (cipherIssue b k d).ifill = d.ifill := rfl
@[simp] theorem cipherIssue_busy (b k : Block) (d : Decryptor) : (cipherIssue b k d).busy = true := rfl
@[simp] theorem cipherIssue_req (b k : Block) (d : Decryptor) : (cipherIssue b k d).req = some ⟨b, k⟩ := rfl
@[simp] theorem cipherIssue_obuf (b k : Block) (d : Decryptor) : (cipherIssue b k d).obuf = d.obuf := rfl
@[simp] theorem cipherIssue_ovalid (b k : Block) (d : Decryptor) : (cipherIssue b k d).ovalid = d.ovalid := rfl
@[simp] theorem cipherIssue_dactive (b k : Block) (d : Decryptor) : (cipherIssue b k d).dactive = d.dactive := rfl
@[simp] theorem cipherIssue_blkcnt (b k : Block) (d : Decryptor) : (cipherIssue b k d).blkcnt = d.blkcnt := rfl
@[simp] theorem cipherIssue_drop (b k : Block) (d : Decryptor) : (cipherIssue b k d).drop = d.drop := rfl

@[simp] theorem deliverBlock_key (r : Request) (d : Decryptor) : (deliverBlock r d).key = d.key := rfl
@[simp] theorem deliverBlock_ibuf (r : Request) (d : Decryptor) : (deliverBlock r d).ibuf = d.ibuf := rfl
@[simp] theorem deliverBlock_ifill (r : Request) (d : Decryptor) : (deliverBlock r d).ifill = d.ifill := rfl
@[simp] theorem deliverBlock_busy (r : Request) (d : Decryptor) : (deliverBlock r d).busy = false := rfl
@[simp] theorem deliverBlock_req (r : Request) (d : Decryptor) : (deliverBlock r d).req = none := rfl
@[simp] theorem deliverBlock_obuf (r : Request) (d : Decryptor) : (deliverBlock r d).obuf = Config.decryptBlock r.key r.blk := rfl
@[simp] theorem deliverBlock_ovalid (r : Request) (d : Decryptor) : (deliverBlock r d).ovalid = true := rfl
@[simp] theorem deliverBlock_dactive (r : Request) (d : Decryptor) : (deliverBlock r d).dactive = d.dactive := rfl
@[simp] theorem deliverBlock_blkcnt (r : Request) (d : Decryptor) : (deliverBlock r d).blkcnt = d.blkcnt + 1 := rfl
@[simp] theorem deliverBlock_drop (r : Request) (d : Decryptor) : (deliverBlock r d).drop = d.drop := rfl

@[simp] theorem abandonFrame_key (d : Decryptor) : (abandonFrame d).key = d.key := rfl
@[simp] theorem abandonFrame_ibuf (d : Decryptor) : (abandonFrame d).ibuf = d.ibuf := rfl
@[simp] theorem abandonFrame_ifill (d : Decryptor) : (abandonFrame d).ifill = 0 := rfl
@[simp] theorem abandonFrame_busy (d : Decryptor) : (abandonFrame d).busy = false := rfl
@[simp] theorem abandonFrame_req (d : Decryptor) : (abandonFrame d).req = none := rfl
@[simp] theorem abandonFrame_obuf (d : Decryptor) : (abandonFrame d).obuf = d.obuf := rfl
@[simp] theorem abandonFrame_ovalid (d : Decryptor) : (abandonFrame d).ovalid = d.ovalid := rfl
@[simp] theorem abandonFrame_dactive (d : Decryptor) : (abandonFrame d).dactive = false := rfl
@[simp] theorem abandonFrame_blkcnt (d : Decryptor) : (abandonFrame d).blkcnt = d.blkcnt := rfl
@[simp] theorem abandonFrame_drop (d : Decryptor) : (abandonFrame d).drop = d.drop := rfl

@[simp] theorem openVerify_crc (c : Checker) : (openVerify c).crc = Config.crcSeed := rfl
@[simp] theorem openVerify_vactive (c : Checker) : (openVerify c).vactive = true := rfl
@[simp] theorem openVerify_vcount (c : Checker) : (openVerify c).vcount = 0 := rfl
@[simp] theorem openVerify_act (c : Checker) : (openVerify c).act = 0 := rfl
@[simp] theorem openVerify_exp (c : Checker) : (openVerify c).exp = 0 := rfl
@[simp] theorem openVerify_vdone (c : Checker) : (openVerify c).vdone = false := rfl
@[simp] theorem openVerify_vok (c : Checker) : (openVerify c).vok = false := rfl
@[simp] theorem openVerify_vshort (c : Checker) : (openVerify c).vshort = false := rfl

@[simp] theorem closeVerify_crc (c : Checker) : (closeVerify c).crc = c.crc := rfl
@[simp] theorem closeVerify_vactive (c : Checker) : (closeVerify c).vactive = false := rfl
@[simp] theorem closeVerify_vcount (c : Checker) : (closeVerify c).vcount = c.vcount := rfl
@[simp] theorem closeVerify_act (c : Checker) : (closeVerify c).act = c.act := rfl
@[simp] theorem closeVerify_exp (c : Checker) : (closeVerify c).exp = c.crc := rfl
@[simp] theorem closeVerify_vdone (c : Checker) : (closeVerify c).vdone = true := rfl
@[simp] theorem closeVerify_vok (c : Checker) : (closeVerify c).vok = (verifyFlags c).2 := rfl
@[simp] theorem closeVerify_vshort (c : Checker) : (closeVerify c).vshort = (verifyFlags c).1 := rfl

end Sys2Proof.Machine
end

