-- ==== Sys2Proof/Laws/State.lean ====
section
/-! SUPPORT. One lemma per field of State for each update of State that the operations make. -/

namespace Sys2Proof.Machine

@[simp] theorem recordError_dec (c : ErrCode) (o : Byte) (s : State) : (recordError c o s).dec = s.dec := rfl
@[simp] theorem recordError_chk (c : ErrCode) (o : Byte) (s : State) : (recordError c o s).chk = s.chk := rfl
@[simp] theorem recordError_err (c : ErrCode) (o : Byte) (s : State) : (recordError c o s).err = s.err.record c o := rfl
@[simp] theorem recordError_program (c : ErrCode) (o : Byte) (s : State) : (recordError c o s).program = s.program := rfl
@[simp] theorem recordError_sched (c : ErrCode) (o : Byte) (s : State) : (recordError c o s).sched = s.sched := rfl
@[simp] theorem recordError_reads (c : ErrCode) (o : Byte) (s : State) : (recordError c o s).reads = s.reads := rfl

@[simp] theorem clearError_dec (s : State) : (clearError s).dec = s.dec := rfl
@[simp] theorem clearError_chk (s : State) : (clearError s).chk = s.chk := rfl
@[simp] theorem clearError_err (s : State) : (clearError s).err = ErrRecord.clear := rfl
@[simp] theorem clearError_program (s : State) : (clearError s).program = s.program := rfl
@[simp] theorem clearError_sched (s : State) : (clearError s).sched = s.sched := rfl
@[simp] theorem clearError_reads (s : State) : (clearError s).reads = s.reads := rfl

@[simp] theorem resetBlock_dec (s : State) : (resetBlock s).dec = Decryptor.reset := rfl
@[simp] theorem resetBlock_chk (s : State) : (resetBlock s).chk = Checker.reset := rfl
@[simp] theorem resetBlock_err (s : State) : (resetBlock s).err = ErrRecord.clear := rfl
@[simp] theorem resetBlock_program (s : State) : (resetBlock s).program = s.program := rfl
@[simp] theorem resetBlock_sched (s : State) : (resetBlock s).sched = s.sched := rfl
@[simp] theorem resetBlock_reads (s : State) : (resetBlock s).reads = s.reads := rfl

@[simp] theorem logRead_dec (off : Offset) (s : State) : (logRead off s).dec = s.dec := rfl
@[simp] theorem logRead_chk (off : Offset) (s : State) : (logRead off s).chk = s.chk := rfl
@[simp] theorem logRead_err (off : Offset) (s : State) : (logRead off s).err = s.err := rfl
@[simp] theorem logRead_program (off : Offset) (s : State) : (logRead off s).program = s.program := rfl
@[simp] theorem logRead_sched (off : Offset) (s : State) : (logRead off s).sched = s.sched := rfl
@[simp] theorem logRead_reads (off : Offset) (s : State) : (logRead off s).reads = s.reads ++ [(off, readOffset off s)] := rfl

@[simp] theorem cipherFail_dec (s : State) : (cipherFail s).dec = abandonFrame s.dec := rfl
@[simp] theorem cipherFail_chk (s : State) : (cipherFail s).chk = s.chk := rfl
@[simp] theorem cipherFail_err (s : State) : (cipherFail s).err = s.err.record .cipher 0x00 := rfl
@[simp] theorem cipherFail_program (s : State) : (cipherFail s).program = s.program := rfl
@[simp] theorem cipherFail_sched (s : State) : (cipherFail s).sched = s.sched := rfl
@[simp] theorem cipherFail_reads (s : State) : (cipherFail s).reads = s.reads := rfl

@[simp] theorem keyWrite_chk (n : Fin 4) (v : Word) (s : State) : (keyWrite n v s).chk = s.chk := by
  unfold keyWrite; split <;> rfl
@[simp] theorem keyWrite_program (n : Fin 4) (v : Word) (s : State) : (keyWrite n v s).program = s.program := by
  unfold keyWrite; split <;> rfl
@[simp] theorem keyWrite_sched (n : Fin 4) (v : Word) (s : State) : (keyWrite n v s).sched = s.sched := by
  unfold keyWrite; split <;> rfl
@[simp] theorem keyWrite_reads (n : Fin 4) (v : Word) (s : State) : (keyWrite n v s).reads = s.reads := by
  unfold keyWrite; split <;> rfl

end Sys2Proof.Machine
end

