-- ==== Sys2Proof/Laws/Ops.lean ====
section
/-! SUPPORT. One spec lemma per shared operation: what it can do, so that its callers need not unfold it. -/

namespace Sys2Proof.Machine

/-- Recording the first error (R182). -/
theorem ErrRecord.record_of_clear {e : ErrRecord} (h : e.code = 0) (c : ErrCode) (o : Byte) :
    e.record c o = { e with code := c.bits, opc := o } := if_pos h

/-- Recording a later error (R182). -/
theorem ErrRecord.record_of_set {e : ErrRecord} (h : e.code ≠ 0) (c : ErrCode) (o : Byte) :
    e.record c o = { e with multi := true } := if_neg h

/-- No produced code is 0 (R181). -/
theorem ErrCode.bits_ne_zero (c : ErrCode) : c.bits ≠ 0 := by cases c <;> decide

/-- No produced code is above 6 (R181). -/
theorem ErrCode.bits_le (c : ErrCode) : c.bits.toNat ≤ 6 := by cases c <;> decide

/-- After an error is recorded the record is not clear (R182). -/
theorem ErrRecord.record_code_ne (e : ErrRecord) (c : ErrCode) (o : Byte) : (e.record c o).code ≠ 0 := by
  by_cases h : e.code = 0
  · rw [ErrRecord.record_of_clear h]; exact c.bits_ne_zero
  · rw [ErrRecord.record_of_set h]; exact h

/-- Recording an error keeps the codes below 7 (R181). -/
theorem ErrRecord.record_code_le {e : ErrRecord} (h : e.code.toNat ≤ 6) (c : ErrCode) (o : Byte) :
    (e.record c o).code.toNat ≤ 6 := by
  by_cases h0 : e.code = 0
  · rw [ErrRecord.record_of_clear h0]; exact c.bits_le
  · rw [ErrRecord.record_of_set h0]; exact h

/-- A KEYn write: refused with KEYLOCK, or four bytes of KEY (R57). -/
theorem keyWrite_cases (n : Fin 4) (v : Word) (s : State) :
    (s.dec.dactive = true ∧ keyWrite n v s = recordError .keylock 0x00 s) ∨
      (s.dec.dactive = false ∧
        keyWrite n v s = { s with dec := { s.dec with key := setBlockWord s.dec.key n v } }) := by
  unfold keyWrite
  cases s.dec.dactive <;> simp

/-- A byte of a frame: stored, or stored with the request issued (R112). -/
theorem acceptByte_cases (b : Byte) (d : Decryptor) :
    (d.ifill = 15 ∧ acceptByte b d = { d with
      ibuf := storeAt d.ibuf d.ifill b
      req := some { blk := storeAt d.ibuf d.ifill b, key := d.key }
      busy := true
      ifill := 0 }) ∨
    (d.ifill ≠ 15 ∧ acceptByte b d = { d with ibuf := storeAt d.ibuf d.ifill b, ifill := d.ifill + 1 }) := by
  unfold acceptByte
  by_cases h : d.ifill = 15
  · exact .inl ⟨h, if_pos h⟩
  · exact .inr ⟨h, if_neg h⟩

/-- `VCOUNT` counts up to 16 (R162). -/
theorem countByte_eq : ∀ n : BitVec 5, countByte n = if n.toNat < 16 then n + 1 else 16 := by decide

/-- `VCOUNT` never passes 16 (R162). -/
theorem countByte_le : ∀ n : BitVec 5, (countByte n).toNat ≤ 16 := by decide

/-- A message byte: of the prefix, of the trailer, or ignored (R162). -/
theorem feedByte_cases (b : Byte) (c : Checker) :
    (c.vcount.toNat < 14 ∧ feedByte b c = { c with crc := crcStep c.crc b, vcount := countByte c.vcount }) ∨
    (c.vcount.toNat = 14 ∧ feedByte b c = { c with act := half b (highByte c.act), vcount := countByte c.vcount }) ∨
    (c.vcount.toNat = 15 ∧ feedByte b c = { c with act := half (lowByte c.act) b, vcount := countByte c.vcount }) ∨
    (16 ≤ c.vcount.toNat ∧ feedByte b c = { c with vcount := countByte c.vcount }) := by
  unfold feedByte Config.verPrefix
  split_ifs with h1 h2 h3
  · exact .inl ⟨h1, rfl⟩
  · exact .inr (.inl ⟨h2, rfl⟩)
  · exact .inr (.inr (.inl ⟨h3, rfl⟩))
  · exact .inr (.inr (.inr ⟨by omega, rfl⟩))

/-- A message byte leaves the verify in progress (R162). -/
theorem feedByte_vactive (b : Byte) (c : Checker) : (feedByte b c).vactive = c.vactive := by
  rcases feedByte_cases b c with ⟨_, e⟩ | ⟨_, e⟩ | ⟨_, e⟩ | ⟨_, e⟩ <;> rw [e]

/-- Shifts through which no 1 falls out are a plain shift (R141). -/
theorem crcShifts_of_zero : ∀ (n : Nat) (c : Half), (∀ i < n, c.getLsbD i = false) → crcShifts n c = c >>> n := by
  intro n
  induction n with
  | zero => intro c _; simp [crcShifts]
  | succ n ih =>
    intro c h
    have h0 := h 0 (by omega)
    simp only [crcShifts, crcShift, h0, Bool.false_eq_true, if_false]
    rw [ih _ fun i hi => by rw [BitVec.getLsbD_ushiftRight]; exact h _ (by omega)]
    apply BitVec.eq_of_getLsbD_eq
    intro i _
    simp [BitVec.getLsbD_ushiftRight]
    congr 1
    omega

/-- A success with a request outstanding delivers it; with none outstanding it is ignored (R114, R116). -/
theorem cipherOkMove_cases {s t : State} (h : cipherOkMove s = .next t) :
    (s.dec.busy = false ∧ t = s) ∨
      (s.dec.busy = true ∧ ∃ r, s.dec.req = some r ∧ t = { s with dec := deliverBlock r s.dec }) := by
  unfold cipherOkMove at h
  cases hb : s.dec.busy <;> simp only [hb, Bool.not_true, Bool.not_false, if_true, Bool.false_eq_true, if_false] at h
  · cases h; exact .inl ⟨rfl, rfl⟩
  · split at h
    · rename_i r hr; cases h; exact .inr ⟨rfl, r, hr, rfl⟩
    · cases h

/-- A failure with a request outstanding ends the frame, where the port can fail; otherwise nothing happens (R115, R116). -/
theorem cipherErrMove_eq (s : State) :
    cipherErrMove s = .next (if s.dec.busy = true ∧ Config.cipherMayFail = true then cipherFail s else s) := by
  unfold cipherErrMove
  cases s.dec.busy <;> cases Config.cipherMayFail <;> rfl

end Sys2Proof.Machine
end

