-- ==== Sys2Proof/Laws/Words.lean ====
section
/-! SUPPORT. Bit fields: the fields of a command word (30_encoding.md R81), the little-endian packing of 20_memory.md R53, and
the byte order of the cipher port (60_exceptions.md R191). -/

namespace Sys2Proof

@[simp] theorem rsvOf_commandWord (op imm : Byte) : rsvOf (commandWord op imm) = 0 := by
  apply BitVec.eq_of_getLsbD_eq
  intro i hi
  simp only [rsvOf, commandWord, BitVec.getLsbD_append, BitVec.getLsbD_extractLsb']
  simp

@[simp] theorem opOf_commandWord (op imm : Byte) : opOf (commandWord op imm) = op := by
  apply BitVec.eq_of_getLsbD_eq
  intro i hi
  simp only [opOf, commandWord, BitVec.getLsbD_append, BitVec.getLsbD_extractLsb']
  simp [hi]
  omega

@[simp] theorem immOf_commandWord (op imm : Byte) : immOf (commandWord op imm) = imm := by
  apply BitVec.eq_of_getLsbD_eq
  intro i hi
  simp only [immOf, commandWord, BitVec.getLsbD_append, BitVec.getLsbD_extractLsb']
  have : i < 8 + 8 := by omega
  simp [hi, this]

/-- A word whose RSV is 0 is made of its OP and IMM8. -/
theorem commandWord_fields (w : Word) (h : rsvOf w = 0) : commandWord (opOf w) (immOf w) = w := by
  apply BitVec.eq_of_getLsbD_eq
  intro i hi
  have hz : ∀ j < 16, w.getLsbD (16 + j) = false := by
    intro j hj
    have := congrArg (fun x : BitVec 16 => x.getLsbD j) h
    simpa [rsvOf, hj] using this
  simp only [commandWord, opOf, immOf, BitVec.getLsbD_append, BitVec.getLsbD_extractLsb', BitVec.getLsbD_zero]
  by_cases h1 : i < 8
  · have : i < 8 + 8 := by omega
    simp [h1, this]
  · by_cases h2 : i < 16
    · have a : i < 8 + 8 := by omega
      have b : i - 8 < 8 := by omega
      have c : 8 + (i - 8) = i := by omega
      simp [h1, a, b, c]
    · have a : ¬i < 8 + 8 := by omega
      have := hz (i - 16) (by omega)
      rw [show 16 + (i - 16) = i by omega] at this
      simp [a, this]

namespace Machine

/-- The four bytes of a packed word. -/
theorem byteOf_packLE (b0 b1 b2 b3 : Byte) :
    byteOf (packLE b0 b1 b2 b3) 0 = b0 ∧ byteOf (packLE b0 b1 b2 b3) 1 = b1 ∧
      byteOf (packLE b0 b1 b2 b3) 2 = b2 ∧ byteOf (packLE b0 b1 b2 b3) 3 = b3 := by
  refine ⟨?_, ?_, ?_, ?_⟩ <;>
    (apply BitVec.eq_of_getLsbD_eq
     intro i hi
     simp only [byteOf, packLE, BitVec.getLsbD_extractLsb', BitVec.getLsbD_append, hi, decide_true, Bool.true_and])
  · rw [if_pos (by omega), if_pos (by omega), if_pos (by omega)]; congr 1; omega
  · rw [if_pos (by omega), if_pos (by omega), if_neg (by omega)]; congr 1; omega
  · rw [if_pos (by omega), if_neg (by omega)]; congr 1; omega
  · rw [if_neg (by omega)]; congr 1; omega

/-- Byte `k` of register word `n` is byte `4n+k` of the array (R53). -/
theorem byteOf_blockWord (a : Block) (n k : Nat) (hn : n < 4) (hk : k < 4) :
    byteOf (blockWord a ⟨n, hn⟩) k = a[4 * n + k] := by
  obtain ⟨h0, h1, h2, h3⟩ := byteOf_packLE a[4 * n] a[4 * n + 1] a[4 * n + 2] a[4 * n + 3]
  match k, hk with
  | 0, _ => exact h0
  | 1, _ => exact h1
  | 2, _ => exact h2
  | 3, _ => exact h3

/-- Which bytes a KEYn write replaces, and by what (R57). -/
theorem getElem_setBlockWord (a : Block) (n : Nat) (hn : n < 4) (v : Word) (i : Nat) (h : i < 16) :
    (setBlockWord a ⟨n, hn⟩ v)[i] = if i / 4 = n then byteOf v (i % 4) else a[i] := by
  simp only [setBlockWord, byteOf, Vector.getElem_set]
  split_ifs <;> first | rfl | omega | (congr 2; omega)

/-- The register an offset of the KEY window names, and its image (R49). -/
theorem readOffset_key (s : State) (n : Nat) (hn : n < 4) :
    readOffset (BitVec.ofNat 6 (0x20 + 4 * n)) s = blockWord s.dec.key ⟨n, hn⟩ := by
  match n, hn with
  | 0, _ => rfl
  | 1, _ => rfl
  | 2, _ => rfl
  | 3, _ => rfl

/-- The register an offset of the OUT window names, and its image (R49). -/
theorem readOffset_out (s : State) (n : Nat) (hn : n < 4) :
    readOffset (BitVec.ofNat 6 (0x30 + 4 * n)) s = blockWord s.dec.obuf ⟨n, hn⟩ := by
  match n, hn with
  | 0, _ => rfl
  | 1, _ => rfl
  | 2, _ => rfl
  | 3, _ => rfl

/-- A 32-bit access is answered at the multiples of 4 (R54). -/
theorem answers_word : ∀ off : Offset, answers off .word = (off.toNat % 4 == 0) := by decide

end Machine

end Sys2Proof
end

