-- ==== Sys2Proof/Laws/Commands.lean ====
section
/-! SUPPORT. What a command can do: it reports its first error and nothing else happens, or it has its effect. -/

namespace Sys2Proof.Machine

/-- Every command, on every state (R100). -/
theorem exec_eq (i : Instr) (s : State) :
    exec i s = .next (match firstError i s with
      | some c => recordError c i.op s
      | none => effect i s) := by
  cases i <;>
    simp only [exec, execNop, execErrClr, execDecStart, execDecByte, execDecPop, execDecEnd, execCrcInit, execCrcByte,
      execVerStart, execVerByte, execVerEnd, raise, firstError, phaseError, busyError, overrunError, effect] <;>
    (repeat' split) <;> simp_all

/-- A command that fails a check (R100). -/
theorem exec_of_error {i : Instr} {s : State} {c : ErrCode} (h : firstError i s = some c) :
    exec i s = .next (recordError c i.op s) := by rw [exec_eq, h]

/-- A command that fails no check (R100). -/
theorem exec_of_ok {i : Instr} {s : State} (h : firstError i s = none) : exec i s = .next (effect i s) := by
  rw [exec_eq, h]

/-- The two things a command can do (R100). -/
theorem exec_cases {i : Instr} {s t : State} (h : exec i s = .next t) :
    (∃ c, firstError i s = some c ∧ t = recordError c i.op s) ∨ (firstError i s = none ∧ t = effect i s) := by
  rw [exec_eq] at h
  cases hf : firstError i s with
  | some c => rw [hf] at h; cases h; exact .inl ⟨c, rfl, rfl⟩
  | none => rw [hf] at h; cases h; exact .inr ⟨rfl, rfl⟩

/-- Only ERR.CLR's effect touches the error record. -/
theorem effect_err {i : Instr} (h : i ≠ .errClr) (s : State) : (effect i s).err = s.err := by
  cases i <;> first | rfl | exact absurd rfl h

@[simp] theorem effect_program (i : Instr) (s : State) : (effect i s).program = s.program := by cases i <;> rfl
@[simp] theorem effect_sched (i : Instr) (s : State) : (effect i s).sched = s.sched := by cases i <;> rfl
@[simp] theorem effect_reads (i : Instr) (s : State) : (effect i s).reads = s.reads := by cases i <;> rfl

/-- The decoder reads a command back from its word. -/
theorem decode_encode (i : Instr) : decode (encode i) = .cmd i := by
  rw [decode, encode, rsvOf_commandWord, opOf_commandWord, immOf_commandWord]
  cases i <;> rfl

/-- An executed word: an illegal one is recorded, any other is its command (R100). -/
theorem execute_cases {w : Word} {s t : State} (h : execute w s = .next t) :
    ((∃ why, decode w = .illegal why) ∧ t = recordError .illegal (opOf w) s) ∨
      ∃ i, decode w = .cmd i ∧ exec i s = .next t := by
  unfold execute at h
  split at h
  · rename_i i hd; exact .inr ⟨i, hd, h⟩
  · rename_i why hd; cases h; exact .inl ⟨⟨why, hd⟩, rfl⟩

/-- Executing a command's word is executing the command. -/
theorem execute_encode (i : Instr) (s : State) : execute (encode i) s = exec i s := by
  simp only [execute, decode_encode]

/-- Executing any word completes (R100). -/
theorem execute_next (w : Word) (s : State) : ∃ t, execute w s = .next t := by
  unfold execute
  split
  · exact ⟨_, exec_eq _ _⟩
  · exact ⟨_, rfl⟩

/-- Writing any register completes (R52). -/
theorem writeReg_next (r : Reg) (v : Word) (s : State) : ∃ t, writeReg r v s = .next t := by
  cases r <;> first | exact execute_next v s | exact ⟨_, rfl⟩

/-- What writing a register can do (R52, R55, R56). -/
theorem writeReg_cases {r : Reg} {v : Word} {s t : State} (h : writeReg r v s = .next t) :
    t = s ∨ (r = .cmd ∧ execute v s = .next t) ∨ ∃ n, r = .key n ∧ t = keyWrite n v s := by
  cases r <;> simp only [writeReg] at h <;> first | exact .inr (.inl ⟨rfl, h⟩) | (cases h; first | exact .inl rfl | exact .inr (.inr ⟨_, rfl, rfl⟩))

end Sys2Proof.Machine
end

