-- ==== Sys2Proof/Laws/PerInstr.lean ====
section
/-! SUPPORT. Statements made of each command: its word has the fields of 30_encoding.md R83 and decodes to it. -/

namespace Sys2Proof.Laws.RoundTrip

/-- The fields of a command's word, read off the word. -/
def Statement (i : Instr) : Prop :=
  decodeOp i.op i.imm = .cmd i ∧ assemble i.mnemonic i.operand = some i ∧ (i.operand = none → i.imm = 0) ∧
    (∀ b, i.operand = some b → i.imm = b)

theorem nop : Statement .nop := ⟨rfl, rfl, fun _ => rfl, fun _ h => by cases h⟩
theorem errClr : Statement .errClr := ⟨rfl, rfl, fun _ => rfl, fun _ h => by cases h⟩
theorem decStart : Statement .decStart := ⟨rfl, rfl, fun _ => rfl, fun _ h => by cases h⟩
theorem decByte (b : Byte) : Statement (.decByte b) := ⟨rfl, rfl, fun h => (by cases h), fun _ h => by cases h; rfl⟩
theorem decPop : Statement .decPop := ⟨rfl, rfl, fun _ => rfl, fun _ h => by cases h⟩
theorem decEnd : Statement .decEnd := ⟨rfl, rfl, fun _ => rfl, fun _ h => by cases h⟩
theorem crcInit : Statement .crcInit := ⟨rfl, rfl, fun _ => rfl, fun _ h => by cases h⟩
theorem crcByte (b : Byte) : Statement (.crcByte b) := ⟨rfl, rfl, fun h => (by cases h), fun _ h => by cases h; rfl⟩
theorem verStart : Statement .verStart := ⟨rfl, rfl, fun _ => rfl, fun _ h => by cases h⟩
theorem verByte (b : Byte) : Statement (.verByte b) := ⟨rfl, rfl, fun h => (by cases h), fun _ h => by cases h; rfl⟩
theorem verEnd : Statement .verEnd := ⟨rfl, rfl, fun _ => rfl, fun _ h => by cases h⟩

end Sys2Proof.Laws.RoundTrip
end

