-- ==== Sys2Proof/Laws/Step.lean ====
section
/-! SUPPORT. What one step can do, said once: the moves of the agents, and the accesses of the host. -/

namespace Sys2Proof.Machine

/-- What an answered access of the host does (R51, R52, R60, R90). -/
theorem hostAccess_cases {op : HostOp} {s t : State} (h : hostAccess op s = .next t) :
    t = s ∨ (∃ off, t = logRead off s) ∨
    (∃ off mask v, op = .poll off mask v ∧ t = { logRead off s with program := op :: s.program }) ∨
    (∃ off size v n, op = .write (.window off) size v ∧ Reg.atOffset off = .key n ∧ t = keyWrite n v s) ∨
    (∃ off size v, op = .write (.window off) size v ∧ Reg.atOffset off = .cmd ∧ execute v s = .next t) := by
  rcases op with ⟨off | a, size⟩ | ⟨off | a, size, v⟩ | ⟨off, mask, v⟩ <;> simp only [hostAccess] at h
  · split at h
    · cases h; exact .inr (.inl ⟨off, rfl⟩)
    · cases h
  · cases h; exact .inl rfl
  · split at h
    · rcases writeReg_cases h with h | ⟨hr, h⟩ | ⟨n, hr, h⟩
      · exact .inl h
      · exact .inr (.inr (.inr (.inr ⟨off, size, v, rfl, hr, h⟩)))
      · exact .inr (.inr (.inr (.inl ⟨off, size, v, n, rfl, hr, h⟩)))
    · cases h
  · cases h; exact .inl rfl
  · split at h
    · split at h <;> cases h
      · exact .inr (.inl ⟨off, rfl⟩)
      · exact .inr (.inr (.inl ⟨off, mask, v, rfl, rfl⟩))
    · cases h

/-- The host's move where the host is the agent that moves. -/
theorem step_of_hostMoves {s : State} (h : HostMoves s) : step s = hostMove { s with sched := s.sched.tail } := by
  rcases s with ⟨d, c, e, p, q, r⟩
  rcases q with _ | ⟨m, q⟩
  · rfl
  · rcases h with h | h
    · cases h
    · cases h; rfl

/-- A step in which the host makes an access. -/
theorem step_of_access {s : State} {op : HostOp} {rest : List HostOp} (h : HostMoves s) (hp : s.program = op :: rest) :
    step s = hostAccess op (s.afterFetch rest) := by
  rw [step_of_hostMoves h]
  simp only [hostMove, hp]
  rfl

/-- A step in which the host has nothing left to do (R230). -/
theorem step_of_idle {s : State} (h : HostMoves s) (hp : s.program = []) :
    step s = .next { s with sched := s.sched.tail } := by
  rw [step_of_hostMoves h]
  simp only [hostMove, hp]

/-- The five things one step can be (R20, R210). -/
theorem step_cases {s t : State} (h : step s = .next t) :
    (HostMoves s ∧ s.program = [] ∧ t = { s with sched := s.sched.tail }) ∨
    (HostMoves s ∧ ∃ op rest, s.program = op :: rest ∧ hostAccess op (s.afterFetch rest) = .next t) ∨
    (s.sched.head? = some .cipherOk ∧ cipherOkMove { s with sched := s.sched.tail } = .next t) ∨
    (s.sched.head? = some .cipherErr ∧ cipherErrMove { s with sched := s.sched.tail } = .next t) ∨
    (s.sched.head? = some .reset ∧ t = resetBlock { s with sched := s.sched.tail }) := by
  by_cases hm : HostMoves s
  · cases hp : s.program with
    | nil => rw [step_of_idle hm hp] at h; cases h; exact .inl ⟨hm, rfl, by rw [hp]⟩
    | cons op rest => rw [step_of_access hm hp] at h; exact .inr (.inl ⟨hm, op, rest, rfl, h⟩)
  · rcases s with ⟨d, c, e, p, q, r⟩
    rcases q with _ | ⟨_ | _ | _ | _, q⟩
    · exact absurd (.inl rfl) hm
    · exact absurd (.inr rfl) hm
    · exact .inr (.inr (.inl ⟨rfl, h⟩))
    · exact .inr (.inr (.inr (.inl ⟨rfl, h⟩)))
    · cases h; exact .inr (.inr (.inr (.inr ⟨rfl, rfl⟩)))

/-- A step uses up one move and no more. -/
theorem step_sched {s t : State} (h : step s = .next t) : t.sched = s.sched.tail := by
  rcases step_cases h with ⟨_, _, rfl⟩ | ⟨_, op, rest, _, ha⟩ | ⟨_, ha⟩ | ⟨_, ha⟩ | ⟨_, rfl⟩
  · rfl
  · rcases hostAccess_cases ha with rfl | ⟨off, rfl⟩ | ⟨off, m, v, _, rfl⟩ | ⟨off, size, v, n, _, _, rfl⟩ |
      ⟨off, size, v, _, _, he⟩
    · rfl
    · rfl
    · rfl
    · simp [State.afterFetch]
    · rcases execute_cases he with ⟨_, rfl⟩ | ⟨i, _, hex⟩
      · rfl
      · rcases exec_cases hex with ⟨c, _, rfl⟩ | ⟨_, rfl⟩ <;> simp [State.afterFetch]
  · rcases cipherOkMove_cases ha with ⟨_, rfl⟩ | ⟨_, r, _, rfl⟩ <;> rfl
  · rw [cipherErrMove_eq] at ha
    cases ha
    split <;> rfl
  · rfl

/-- No reset comes to be asserted by stepping. -/
theorem step_noReset {s t : State} (h : step s = .next t) (hr : NoReset s) : NoReset t := by
  unfold NoReset
  rw [step_sched h]
  exact fun h' => hr (List.mem_of_mem_tail h')

/-- No cipher failure comes to be scheduled by stepping. -/
theorem step_noCipherErr {s t : State} (h : step s = .next t) (hc : NoCipherErr s) : NoCipherErr t := by
  unfold NoCipherErr
  rw [step_sched h]
  exact fun h' => hc (List.mem_of_mem_tail h')

/-- No command reads or changes the order of the moves. -/
theorem exec_sched (i : Instr) (s : State) (ms : List Move) :
    exec i { s with sched := ms } = onNext (fun t => { t with sched := ms }) (exec i s) := by
  rw [exec_eq, exec_eq]
  have : firstError i { s with sched := ms } = firstError i s := by cases i <;> rfl
  rw [this]
  cases firstError i s with
  | some c => rfl
  | none => cases i <;> rfl

/-- No access of the host reads or changes the order of the moves. -/
theorem hostAccess_sched (op : HostOp) (s : State) (ms : List Move) :
    hostAccess op { s with sched := ms } = onNext (fun t => { t with sched := ms }) (hostAccess op s) := by
  have hw : ∀ r v, writeReg r v { s with sched := ms } = onNext (fun t => { t with sched := ms }) (writeReg r v s) := by
    intro r v
    cases r <;> try rfl
    · simp only [writeReg, execute]
      split
      · exact exec_sched _ _ _
      · rfl
    · simp only [writeReg, keyWrite]
      split <;> rfl
  have hr : ∀ off, readOffset off { s with sched := ms } = readOffset off s := fun _ => rfl
  rcases op with ⟨off | a, size⟩ | ⟨off | a, size, v⟩ | ⟨off, mask, v⟩ <;> simp only [hostAccess]
  · split <;> rfl
  · rfl
  · split
    · exact hw _ _
    · rfl
  · rfl
  · rw [hr]
    split
    · split <;> rfl
    · rfl

/-- An access leaves the host's other statements, and a POLL stays before them while its condition fails (R90). -/
theorem hostAccess_program {op : HostOp} {s t : State} (h : hostAccess op s = .next t) :
    t.program = s.program ∨ (t.program = op :: s.program ∧ op.command = none ∧ op.writesKey = false) := by
  rcases hostAccess_cases h with rfl | ⟨_, rfl⟩ | ⟨_, _, _, rfl, rfl⟩ | ⟨_, _, v, n, _, _, rfl⟩ | ⟨_, _, _, _, _, he⟩
  · exact .inl rfl
  · exact .inl rfl
  · exact .inr ⟨rfl, rfl, rfl⟩
  · rcases keyWrite_cases n v s with ⟨_, e⟩ | ⟨_, e⟩ <;> rw [e] <;> exact .inl rfl
  · rcases execute_cases he with ⟨_, rfl⟩ | ⟨i, _, hex⟩
    · exact .inl rfl
    · rcases exec_cases hex with ⟨_, _, rfl⟩ | ⟨_, rfl⟩
      · exact .inl rfl
      · exact .inl (effect_program i s)

/-- An access that runs no checksum command leaves the checksum engine (R59, D32). -/
theorem hostAccess_chk {op : HostOp} {s t : State} (h : hostAccess op s = .next t) (hu : op.usesChecksum = false) :
    t.chk = s.chk := by
  rcases hostAccess_cases h with rfl | ⟨_, rfl⟩ | ⟨_, _, _, rfl, rfl⟩ | ⟨_, _, v, n, _, _, rfl⟩ | ⟨off, _, v, rfl, hr, he⟩
  · rfl
  · rfl
  · rfl
  · rcases keyWrite_cases n v s with ⟨_, e⟩ | ⟨_, e⟩ <;> simp [e]
  · rcases execute_cases he with ⟨_, rfl⟩ | ⟨i, hd, hex⟩
    · rfl
    · have hi : checksumCommand i = false := by simpa [HostOp.usesChecksum, HostOp.command, hr, hd] using hu
      rcases exec_cases hex with ⟨_, _, rfl⟩ | ⟨_, rfl⟩
      · rfl
      · cases i <;> first | rfl | cases hi

/-- An access that neither runs a decrypt command nor writes KEY leaves the decrypt engine (R59, D32). -/
theorem hostAccess_dec {op : HostOp} {s t : State} (h : hostAccess op s = .next t) (hu : op.usesDecrypt = false) :
    t.dec = s.dec := by
  rcases hostAccess_cases h with rfl | ⟨_, rfl⟩ | ⟨_, _, _, rfl, rfl⟩ | ⟨off, _, v, n, rfl, hr, rfl⟩ | ⟨off, _, v, rfl, hr, he⟩
  · rfl
  · rfl
  · rfl
  · simp [HostOp.usesDecrypt, HostOp.writesKey, hr] at hu
  · rcases execute_cases he with ⟨_, rfl⟩ | ⟨i, hd, hex⟩
    · rfl
    · have hi : decryptCommand i = false := by
        have := hu
        simp only [HostOp.usesDecrypt, HostOp.command, hr, hd, Bool.or_eq_false_iff] at this
        exact this.1
      rcases exec_cases hex with ⟨_, _, rfl⟩ | ⟨_, rfl⟩
      · rfl
      · cases i <;> first | rfl | cases hi

/-- The command of a command statement is that command. -/
@[simp] theorem command_cmd (i : Instr) : (cmd i).command = some i := by
  show (match Reg.atOffset 0, decode (encode i) with
    | .cmd, .cmd j => some j
    | _, _ => none) = some i
  rw [decode_encode]
  rfl

/-- A command statement writes no key register. -/
@[simp] theorem writesKey_cmd (i : Instr) : (cmd i).writesKey = false := rfl

/-- Where the next moves are the host's, so is this one. -/
theorem HostOnly.hostMoves {k : Nat} {s : State} (h : HostOnly (k + 1) s) : HostMoves s := by
  rcases s with ⟨_, _, _, _, _ | ⟨m, ms⟩, _⟩
  · exact .inl rfl
  · exact .inr (congrArg some (h m (by simp)))

/-- Where the next moves are the host's, the ones after this one are. -/
theorem HostOnly.tail {k : Nat} {s t : State} (h : HostOnly (k + 1) s) (ht : t.sched = s.sched.tail) : HostOnly k t := by
  intro m hm
  rw [ht] at hm
  apply h
  rcases s with ⟨_, _, _, _, _ | ⟨m', ms⟩, _⟩
  · simp at hm
  · exact List.mem_cons_of_mem _ hm

/-- The host's step when its next statement is a command. -/
theorem step_of_cmd {s : State} {i : Instr} {rest : List HostOp} (hm : HostMoves s) (hp : s.program = cmd i :: rest) :
    step s = exec i (s.afterFetch rest) := by
  rw [step_of_access hm hp]
  show hostAccess (.write (.window 0) .word (encode i)) _ = _
  simp only [hostAccess]
  rw [if_pos (by decide)]
  show execute (encode i) _ = _
  rw [execute_encode]

/-- STATUS.BUSY as the host polls it (R44). -/
theorem status_busy (s : State) : (readOffset 0x04 s).getLsbD 0 = s.dec.busy := by
  show (statusWord s.dec s.chk s.err).getLsbD 0 = _
  simp only [statusWord, BitVec.getLsbD_append]
  simp

/-- The host's step at a WAIT.IDLE: it polls again while BUSY = 1 (R90). -/
theorem step_of_waitIdle {s : State} {rest : List HostOp} (hm : HostMoves s) (hp : s.program = waitIdle :: rest) :
    step s = .next (if s.dec.busy then { logRead 0x04 (s.afterFetch rest) with program := waitIdle :: rest }
      else logRead 0x04 (s.afterFetch rest)) := by
  rw [step_of_access hm hp]
  have e : (readOffset 0x04 (s.afterFetch rest)).getLsbD 0 = s.dec.busy := status_busy _
  show hostAccess (.poll 0x04 1 0) _ = _
  simp only [hostAccess]
  rw [if_pos (by decide)]
  cases hb : s.dec.busy
  · rw [if_pos]
    · simp
    · apply BitVec.eq_of_getLsbD_eq
      intro i hi
      rw [BitVec.getLsbD_and]
      by_cases h0 : i = 0
      · subst h0; rw [e, hb]; simp
      · simp; intro _; exact h0
  · rw [if_neg]
    · rfl
    · intro h
      have := congrArg (fun x => x.getLsbD 0) h
      simp only [BitVec.getLsbD_and, e, hb] at this
      simp at this

/-- The host's step at a read of OUTn (R51, R90). -/
theorem step_of_readOut {s : State} {n : Fin 4} {rest : List HostOp} (hm : HostMoves s)
    (hp : s.program = readFrom (.out n) :: rest) :
    step s = .next { s.afterFetch rest with reads := s.reads ++ [((Reg.out n).offset, blockWord s.dec.obuf n)] } := by
  rw [step_of_access hm hp]
  match n with
  | 0 => rfl
  | 1 => rfl
  | 2 => rfl
  | 3 => rfl

/-- One step more of a run, at its front. -/
theorem run_succ_of_step {s t : State} (h : step s = .next t) (n : Nat) : core.run (n + 1) s = core.run n t := by
  have h' : core.step s = .next t := h
  simp only [Host.Core.run, h']

/-- The first step of a run that answers. -/
theorem run_succ_cases {s t : State} {n : Nat} (h : core.run (n + 1) s = .next t) :
    ∃ s', step s = .next s' ∧ core.run n s' = .next t := by
  simp only [Host.Core.run] at h
  split at h
  · rename_i s' hs; exact ⟨s', hs, h⟩
  · cases h
  · cases h

/-- What holds of a state and is kept by every step holds after every run from it. -/
theorem run_keeps {P : State → Prop} (hstep : ∀ s t, P s → step s = .next t → P t) :
    ∀ (n : Nat) (s t : State), P s → core.run n s = .next t → P t := by
  intro n
  induction n with
  | zero => intro s t hs h; cases h; exact hs
  | succ n ih =>
    intro s t hs h
    obtain ⟨s', h1, h2⟩ := run_succ_cases h
    exact ih s' t (hstep s s' hs h1) h2

end Sys2Proof.Machine
end

