-- ==== Sys2Proof/Tests/Slice0.lean ====
section
/-! SUPPORT. Tests from the worked examples and vectors of 95_test_vectors.md and of the rules (the row is named at each test), and
for each statement with hypotheses a witness that meets them. -/

namespace Sys2Proof.Tests

open Sys2Proof.Machine

/-- The state after the step that writes `w` to CMD, where there is one. -/
def after (s : State) (w : Nat) : Option State :=
  match step (s.withFetchWord 32 w) with
  | .next t => some t
  | .fault _ => none
  | .refused _ => none

/-- What the host reads at `off` after that step. -/
def reg (off : Offset) (s : State) (w : Nat) : Option Word := (after s w).map (readOffset off)

/-- From reset, with a decrypt engine of the test's own. -/
def withDec (d : Decryptor) : State := { State.reset with dec := d }

/-- From reset, with a checksum engine of the test's own. -/
def withChk (c : Checker) : State := { State.reset with chk := c }

/-- A frame is open (D7). -/
def opened : State := withDec { Decryptor.reset with dactive := true }

/-- A frame is open and 15 bytes are in (R112's example). -/
def almost : State := withDec { Decryptor.reset with dactive := true, ifill := 15 }

/-- A request is outstanding (D8). -/
def busy : State := withDec { Decryptor.reset with dactive := true, busy := true, req := some ⟨Block.zero, Block.zero⟩ }

/-- A block is held, the frame still open (D9). -/
def held : State := withDec { Decryptor.reset with dactive := true, ovalid := true, blkcnt := 1 }

/-- A verify is in progress (V9). -/
def verifying : State := withChk { Checker.reset with vactive := true }

/-- An error is recorded: VER.BYTE with no verify open (X1). -/
def erred : State := { State.reset with err := ⟨2, 0x31, false⟩ }

/-! ## Well-formedness: each check refuses an ill-formed term -/

theorem test_wf_byteAccess : (HostOp.read (.window 0x04) .byte).wellFormed = false := by decide
theorem test_wf_halfAccess : (HostOp.write (.window 0x00) .half 0).wellFormed = false := by decide
theorem test_wf_misalignedRead : (HostOp.read (.window 0x05) .word).wellFormed = false := by decide
theorem test_wf_misalignedWrite : (HostOp.write (.window 0x22) .word 0).wellFormed = false := by decide
theorem test_wf_misalignedPoll : (HostOp.poll 0x06 1 0).wellFormed = false := by decide
theorem test_wf_alignedRead : (HostOp.read (.window 0x3C) .word).wellFormed = true := by decide
theorem test_wf_command : (Instr.decByte 0xFF).wellFormed = true := by decide

/-! ## Decoding: words written out from R83, RSV then OP then IMM8 -/

theorem test_decode_nop : decode 0b0000000000000000_00000000_00000000 = .cmd .nop := by decide
theorem test_decode_errClr : decode 0b0000000000000000_00000001_00000000 = .cmd .errClr := by decide
theorem test_decode_decStart : decode 0b0000000000000000_00010000_00000000 = .cmd .decStart := by decide
theorem test_decode_decByte : decode 0b0000000000000000_00010001_10100101 = .cmd (.decByte 0xA5) := by decide
theorem test_decode_decPop : decode 0b0000000000000000_00010010_00000000 = .cmd .decPop := by decide
theorem test_decode_decEnd : decode 0b0000000000000000_00010011_00000000 = .cmd .decEnd := by decide
theorem test_decode_crcInit : decode 0b0000000000000000_00100000_00000000 = .cmd .crcInit := by decide
theorem test_decode_crcByte : decode 0b0000000000000000_00100001_00110001 = .cmd (.crcByte 0x31) := by decide
theorem test_decode_verStart : decode 0b0000000000000000_00110000_00000000 = .cmd .verStart := by decide
theorem test_decode_verByte : decode 0b0000000000000000_00110001_11111010 = .cmd (.verByte 0xFA) := by decide
theorem test_decode_verEnd : decode 0b0000000000000000_00110010_00000000 = .cmd .verEnd := by decide
theorem test_decode_table : decodeTableWord 32 0x000011A5 = some (.decByte 0xA5) ∧ decodeTableWord 32 0x00004000 = none := by decide
theorem test_encode_words : encode .verEnd = 0x00003200 ∧ encode (.crcByte 0x31) = 0x00002131 := by decide
theorem test_assemble : assemble "DEC.BYTE" (some 0xFF) = some (.decByte 0xFF) ∧ assemble "VER.END" (some 1) = none := by decide

/-! ## Illegal words (rows E2, E7, E10 to E14) -/

theorem test_E2_E7 : reg 0x14 .reset 0x00000001 = some 0x00000001 ∧ reg 0x14 .reset 0x00010021 = some 0x00000001 := by decide
theorem test_E10_E14 : reg 0x14 .reset 0x00000F00 = some 0x00000F01 ∧ reg 0x14 .reset 0xFFFFFFFF = some 0x0000FF01 := by decide

/-! ## Commands -/

/-- R101: NOP from reset leaves the block at its reset values. -/
theorem test_nop : (after .reset 0x00000000).map (fun t => (t.dec, t.chk, t.err)) =
    some (Decryptor.reset, Checker.reset, ErrRecord.clear) := by decide

/-- R102's example. -/
theorem test_errClr : reg 0x14 { State.reset with err := ⟨2, 0x31, true⟩ } 0x00000100 = some 0x00000000 := by decide

/-- Row X5. -/
theorem test_X5 : reg 0x14 { State.reset with err := ⟨1, 0x32, false⟩ } 0x00000101 = some 0x80003201 := by decide

/-- Rows D7 and D14. -/
theorem test_decStart : reg 0x04 .reset 0x00001000 = some 0x00000004 ∧ reg 0x04 busy 0x00001000 = some 0x00000085 := by decide

/-- Row D11: a restart discards the partial chunk. -/
theorem test_D11 : reg 0x04 (withDec { Decryptor.reset with dactive := true, ifill := 5 }) 0x00001000 = some 0x00000004 := by decide

/-- R112's example. -/
theorem test_decByte_completes : reg 0x04 almost 0x0000115A = some 0x00000005 ∧
    (after almost 0x0000115A).map (fun t => t.dec.ibuf[15]) = some 0x5A := by decide

/-- Rows D12, D15 (from a clear record) and D23. -/
theorem test_decByte_errors : reg 0x14 busy 0x00001177 = some 0x00001103 ∧ reg 0x14 held 0x00001177 = some 0x00001104 ∧
    reg 0x14 .reset 0x00001100 = some 0x00001102 := by decide

/-- Rows D10 and D21. -/
theorem test_decPop : reg 0x04 held 0x00001200 = some 0x00000004 ∧ reg 0x14 .reset 0x00001200 = some 0x00001202 := by decide

/-- R118's example: four tail bytes after one block. -/
theorem test_decEnd : reg 0x10 (withDec { Decryptor.reset with dactive := true, ifill := 4, blkcnt := 1 }) 0x00001300 =
    some 0x00040001 := by decide

/-- Rows D16 and D22. -/
theorem test_decEnd_held : reg 0x04 held 0x00001300 = some 0x00000002 ∧ reg 0x14 .reset 0x00001300 = some 0x00001302 := by decide

/-- R143's example, and row K16. -/
theorem test_crcInit : reg 0x08 (withChk { Checker.reset with crc := 0x4B37 }) 0x00002000 = some 0x0000FFFF ∧
    reg 0x14 verifying 0x00002000 = some 0x00002002 := by decide

/-- Rows K14 and K15. -/
theorem test_crcByte : reg 0x08 .reset 0x00002131 = some 0x0000947E ∧ reg 0x14 verifying 0x00002105 = some 0x00002102 := by decide

/-- Rows T1 to T3, T5, T6, T8 and T9. -/
theorem test_crcStep : crcStep 0xFFFF 0x00 = 0x40BF ∧ crcStep 0xFFFF 0xFF = 0x00FF ∧ crcStep 0xFFFF 0x01 = 0x807E ∧
    crcStep 0x0000 0x01 = 0xC0C1 ∧ crcStep 0x0000 0x80 = 0xA001 ∧ crcStep 0xA001 0x00 = 0xC061 ∧
    crcStep 0x1234 0x56 = 0xE993 := by decide

/-- Rows K1 and K5. -/
theorem test_crc16 : crc16 [] = 0xFFFF ∧ crc16 [0x41] = 0x707F := by decide

/-- Row K7, with the running values of K4 and K6: the fold goes from the first byte to the last. -/
theorem test_K7 : crc16 [0x01, 0x02, 0x03] = 0x6161 := by
  have fold : ∀ a b c : Byte, crc16 [a, b, c] = crcStep (crcStep (crcStep 0xFFFF a) b) c := fun _ _ _ => rfl
  have k4 : crcStep 0xFFFF 0x01 = 0x807E := by decide
  have k6 : crcStep 0x807E 0x02 = 0xE181 := by decide
  have k7 : crcStep 0xE181 0x03 = 0x6161 := by decide
  rw [fold, k4, k6, k7]

/-- R161's example, and row V9: a restart clears the held result. -/
theorem test_verStart : reg 0x04 .reset 0x00003000 = some 0x00000008 ∧
    reg 0x04 (withChk { Checker.reset with vdone := true, vok := true, vcount := 16 }) 0x00003000 = some 0x00000008 := by decide

/-- R162's example: bytes 14 and 15 of the message are the low and the high byte of ACT. -/
theorem test_verByte : reg 0x0C (withChk { Checker.reset with vactive := true, vcount := 14 }) 0x000031BC = some 0x00BC0000 ∧
    reg 0x0C (withChk { Checker.reset with vactive := true, vcount := 15, act := 0x00BC }) 0x000031FA = some 0xFABC0000 := by decide

/-- Row V7, and V3: byte 16 is ignored and VCOUNT stays 16. -/
theorem test_verByte_edges : reg 0x14 .reset 0x00003100 = some 0x00003102 ∧
    reg 0x04 (withChk { Checker.reset with vactive := true, vcount := 16, act := 0xFABC }) 0x00003155 = some 0x00010008 := by decide

/-- Rows V1 and V2 at VER.END. -/
theorem test_verEnd : reg 0x04 (withChk { Checker.reset with vactive := true, vcount := 16, crc := 0xFABC, act := 0xFABC }) 0x00003200 =
      some 0x00010030 ∧
    reg 0x04 (withChk { Checker.reset with vactive := true, vcount := 16, crc := 0x1234 }) 0x00003200 = some 0x00010010 := by decide

/-- Rows V5 and V8. -/
theorem test_verEnd_short : reg 0x04 verifying 0x00003200 = some 0x00000050 ∧ reg 0x14 .reset 0x00003200 = some 0x00003202 := by decide

/-! ## Host accesses, the cipher port and reset -/

/-- Row M5: W KEY2, then R KEY2. -/
theorem test_M5 : readOffset 0x28 (keyWrite 2 0xA1B2C3D4 .reset) = 0xA1B2C3D4 ∧
    (keyWrite 2 0xA1B2C3D4 .reset).dec.key[8] = 0xD4 ∧ (keyWrite 2 0xA1B2C3D4 .reset).dec.key[11] = 0xA1 := by decide

/-- Row D20: KEYLOCK, and KEY0 reads as before. -/
theorem test_D20 : readOffset 0x14 (keyWrite 0 0x12345678 opened) = 0x00000005 ∧ readOffset 0x20 (keyWrite 0 0x12345678 opened) = 0 := by decide

/-- Rows M2 and M4: ignored writes. -/
theorem test_M2_M4 : hostAccess (.write (.window 0x04) .word 0xFFFFFFFF) .reset = .next .reset ∧
    hostAccess (.write (.window 0x1C) .word 1) .reset = .next .reset := ⟨rfl, rfl⟩

/-- Row D9: the flags and the count after CipherOk. -/
theorem test_D9 : ∃ t, step { busy with sched := [.cipherOk] } = .next t ∧ readOffset 0x04 t = 0x00000006 ∧
    readOffset 0x10 t = 0x00000001 := ⟨_, rfl, by decide, by decide⟩

/-- Row D19: the block after CipherErr. -/
theorem test_D19 : readOffset 0x04 (cipherFail busy) = 0x00000080 ∧ readOffset 0x14 (cipherFail busy) = 0x00000006 := by decide

/-- R210: reset while BUSY = 1. -/
theorem test_reset_busy : step { busy with sched := [.reset] } = .next State.reset := rfl

/-- R49's example. -/
theorem test_key_packing : blockWord aesKey 0 = 0x03020100 ∧ blockWord aesKey 3 = 0x0F0E0D0C := by decide

/-! ## The AES rows A1 to A4, under the premise that the cipher is AES -/

set_option maxRecDepth 20000 in
theorem test_A1 (h : CipherAgreesWithAes) :
    Config.decryptBlock aesKey #v[0x69, 0xC4, 0xE0, 0xD8, 0x6A, 0x7B, 0x04, 0x30, 0xD8, 0xCD, 0xB7, 0x80, 0x70, 0xB4, 0xC5, 0x5A] =
      #v[0x00, 0x11, 0x22, 0x33, 0x44, 0x55, 0x66, 0x77, 0x88, 0x99, 0xAA, 0xBB, 0xCC, 0xDD, 0xEE, 0xFF] :=
  decryptBlock_eq_of_aes h (by decide)

set_option maxRecDepth 20000 in
theorem test_A2 (h : CipherAgreesWithAes) :
    Config.decryptBlock aesKey #v[0x00, 0x00, 0x00, 0x00, 0x00, 0x00, 0x00, 0x00, 0x00, 0x00, 0x00, 0x00, 0x00, 0x00, 0x00, 0x00] =
      #v[0x7B, 0x1D, 0x29, 0xA1, 0x6C, 0xF8, 0xCC, 0xAB, 0x84, 0xF0, 0xB8, 0xA5, 0x98, 0xE4, 0x2F, 0xA6] :=
  decryptBlock_eq_of_aes h (by decide)

set_option maxRecDepth 20000 in
theorem test_A3 (h : CipherAgreesWithAes) :
    Config.decryptBlock aesKey #v[0x77, 0x00, 0xB1, 0xD1, 0xBE, 0x03, 0xF4, 0x54, 0x69, 0xBC, 0x2E, 0x1F, 0xA0, 0xB0, 0x9D, 0x88] =
      #v[0x00, 0x01, 0x02, 0x03, 0x04, 0x05, 0x06, 0x07, 0x08, 0x09, 0x0A, 0x0B, 0x0C, 0x0D, 0xBC, 0xFA] :=
  decryptBlock_eq_of_aes h (by decide)

set_option maxRecDepth 20000 in
theorem test_A4 (h : CipherAgreesWithAes) :
    Config.decryptBlock aesKey #v[0xA4, 0x29, 0x66, 0x7B, 0x87, 0x8C, 0x54, 0xA2, 0xF8, 0x42, 0xE1, 0x3B, 0x20, 0x78, 0xF4, 0x62] =
      #v[0x00, 0x00, 0x00, 0x00, 0x00, 0x00, 0x00, 0x00, 0x00, 0x00, 0x00, 0x00, 0x2B, 0x7A, 0x00, 0x00] :=
  decryptBlock_eq_of_aes h (by decide)

/-! ## Witnesses: for each statement with hypotheses, states and operands that meet them -/

theorem reset_inv : BlockInv State.reset := by constructor <;> decide
theorem busy_inv : BlockInv busy := by constructor <;> decide
theorem held_inv : BlockInv held := by constructor <;> decide

theorem witness_IllegalWordsExactly : (∃ why, decode 0x00004000 = .illegal why) ∧ decode 0x00002131 = .cmd (.crcByte 0x31) :=
  ⟨⟨_, rfl⟩, rfl⟩

theorem witness_ReservedEncodingsOnlyRecord : (0x00010021 : Word).extractLsb' 16 16 ≠ 0 ∧
    (0x02 ≤ (0x02 : Byte).toNat ∧ (0x0F : Byte).toNat ≤ 0x0F) ∧ (0x14 ≤ (0x14 : Byte).toNat ∧ (0x1F : Byte).toNat ≤ 0x1F) ∧
    (0x22 ≤ (0x22 : Byte).toNat ∧ (0x2F : Byte).toNat ≤ 0x2F) ∧ (0x33 ≤ (0x33 : Byte).toNat ∧ (0xFF : Byte).toNat ≤ 0xFF) ∧
    Instr.verEnd.operand = none ∧ (0x01 : Byte) ≠ 0 := by decide

theorem witness_MnemonicsAssemble : Instr.nop.operand = none ∧ (Instr.decByte 0xFF).operand ≠ none := by decide

theorem witness_StepRunsDecodedCommand : HostMoves (State.reset.withFetchWord 32 0x2131) ∧
    (State.reset.withFetchWord 32 0x2131).program = .write (.window 0x00) .word 0x00002131 :: [] ∧
    decode 0x00002131 = .cmd (.crcByte 0x31) ∧
    { State.reset with program := [.read (.window 0x00) .word] }.program = .read (.window 0x00) .word :: [] :=
  ⟨.inr rfl, rfl, rfl, rfl⟩

theorem witness_CommandsAreAllOrNothing : decode 0x00004000 = .illegal .reservedOp ∧ decode 0x00001300 = .cmd .decEnd := by decide

theorem witness_ErrorPriority : (∃ why, decode 0x00003201 = .illegal why) ∧ decode (encode (.decByte 0)) = .cmd (.decByte 0) ∧
    phaseError (.decByte 0) .reset = true ∧ (phaseError (.decByte 0) busy = false ∧ busyError (.decByte 0) busy = true) ∧
    (phaseError (.decByte 0) held = false ∧ busyError (.decByte 0) held = false ∧ overrunError (.decByte 0) held = true) ∧
    (phaseError (.decByte 0) opened = false ∧ busyError (.decByte 0) opened = false ∧ overrunError (.decByte 0) opened = false) ∧
    BlockInv State.reset :=
  ⟨⟨_, rfl⟩, by decide, by decide, by decide, by decide, by decide, reset_inv⟩

theorem witness_RecordErrorKeepsTheFirst : State.reset.err.code = 0 ∧ erred.err.code ≠ 0 := by decide

theorem witness_RecordClearedOnlyByErrClrOrReset : ∃ s t : State, step s = .next t ∧ s.err.code ≠ 0 ∧ s.err.multi = true ∧
    s.sched.head? ≠ some .reset ∧
    ¬∃ off v rest, HostMoves s ∧ s.program = .write (.window off) .word v :: rest ∧ Reg.atOffset off = .cmd ∧
      decode v = .cmd .errClr :=
  ⟨{ erred with err := ⟨2, 0x31, true⟩ }, _, rfl, by decide, rfl, by decide, fun ⟨_, _, _, _, h, _⟩ => by cases h⟩

theorem witness_NopHasNoEffect : (0x01 : Byte) ≠ 0 := by decide

theorem witness_ErrClrClearsRecord : exec .errClr erred = .next State.reset ∧ (0x01 : Byte) ≠ 0 ∧ erred.err.code ≠ 0 ∧
    State.reset.err.code = 0 ∧ BlockInv State.reset ∧
    step { erred with program := [cmd .errClr] } = .next State.reset ∧ State.reset.err.code = 0 :=
  ⟨rfl, by decide, by decide, rfl, reset_inv, rfl, rfl⟩

theorem witness_DecStartOpensFrame : busy.dec.busy = true ∧ State.reset.dec.busy = false ∧ (0xFF : Byte) ≠ 0 := by decide

theorem witness_DecByteFeedsTheChunk : State.reset.dec.dactive = false ∧ (busy.dec.dactive = true ∧ busy.dec.busy = true) ∧
    (held.dec.dactive = true ∧ held.dec.busy = false ∧ held.dec.ovalid = true) ∧
    (opened.dec.dactive = true ∧ opened.dec.busy = false ∧ opened.dec.ovalid = false ∧ opened.dec.ifill ≠ 15) ∧
    (almost.dec.dactive = true ∧ almost.dec.busy = false ∧ almost.dec.ovalid = false ∧ almost.dec.ifill = 15) := by decide

theorem witness_DecPopReleasesBlock : State.reset.dec.ovalid = false ∧ held.dec.ovalid = true ∧ (0x01 : Byte) ≠ 0 ∧ BlockInv held :=
  ⟨rfl, rfl, by decide, held_inv⟩

theorem witness_DecEndDropsTail : State.reset.dec.dactive = false ∧ (busy.dec.dactive = true ∧ busy.dec.busy = true) ∧
    (opened.dec.dactive = true ∧ opened.dec.busy = false) ∧ (0x01 : Byte) ≠ 0 := by decide

theorem witness_CrcInitLoadsSeed : verifying.chk.vactive = true ∧ State.reset.chk.vactive = false ∧ (0x01 : Byte) ≠ 0 := by decide

theorem witness_CrcByteUpdatesCrc : verifying.chk.vactive = true ∧ State.reset.chk.vactive = false := by decide

/-- With a decrypt command and a NOP among the CRC commands, and a cipher response among the moves. -/
theorem witness_CrcCommandsComputeCrc16 : ∃ s t : State, s.chk.vactive = false ∧
    s.program.filter HostOp.usesChecksum = cmd .crcInit :: crcBytes [0x31] ∧ NoReset s ∧ core.run 5 s = .next t ∧ t.program = [] :=
  ⟨{ State.reset with
      program := [cmd .crcInit, cmd .decStart, cmd (.crcByte 0x31), cmd .nop], sched := [.host, .cipherOk] },
    _, rfl, by decide, by simp [NoReset], rfl, rfl⟩

theorem witness_CrcCommandsComputeCrc16_alone : ∃ s : State, s.chk.vactive = false ∧
    s.program = cmd .crcInit :: crcBytes [0x31] ∧ HostOnly 2 s ∧ s.sched = [.host, .host, .cipherOk] :=
  ⟨{ State.reset with program := cmd .crcInit :: crcBytes [0x31], sched := [.host, .host, .cipherOk] }, rfl, rfl,
    by simp [HostOnly], rfl⟩

theorem witness_VerStartBeginsVerify : (0x01 : Byte) ≠ 0 := by decide

theorem witness_VerByteFeedsMessage : State.reset.chk.vactive = false ∧ verifying.chk.vactive = true := by decide

theorem witness_VerEndProducesResult : State.reset.chk.vactive = false ∧
    (verifying.chk.vactive = true ∧ verifying.chk.vcount.toNat < 16) ∧
    (∃ s : State, s.chk.vactive = true ∧ 16 ≤ s.chk.vcount.toNat) ∧ (0x01 : Byte) ≠ 0 :=
  ⟨rfl, by decide, ⟨withChk { Checker.reset with vactive := true, vcount := 16 }, rfl, by decide⟩, by decide⟩

theorem witness_HeldResultMapsToDocument :
    (∃ s : State, BlockInv s ∧ s.chk.vdone = true ∧ s.chk.vok = true) ∧
    (∃ s : State, s.chk.vdone = true ∧ s.chk.vshort = false ∧ s.chk.vok = false) ∧
    (∃ s : State, s.chk.vdone = true ∧ s.chk.vshort = true) ∧ State.reset.chk.vdone = false :=
  ⟨⟨withChk { Checker.reset with vdone := true, vok := true }, by constructor <;> decide, rfl, rfl⟩,
    ⟨withChk { Checker.reset with vdone := true }, rfl, rfl, rfl⟩,
    ⟨withChk { Checker.reset with vdone := true, vshort := true }, rfl, rfl⟩, rfl⟩

/-- A message of 16 zero bytes, with the run that uses its sequence up. -/
theorem witness_VerifyMessageIsVerify : ∃ (m : List Byte) (s t : State), 16 ≤ m.length ∧ s.program = verMsg m ∧ NoReset s ∧
    s.sched = [] ∧ core.run (m.length + 2) s = .next t ∧ t.program = [] :=
  ⟨List.replicate 16 0, { State.reset with program := verMsg (List.replicate 16 0) }, _, by decide, rfl,
    by simp [NoReset, State.reset], rfl, rfl, rfl⟩

/-- A message of one byte, a cipher response coming in the middle of it. -/
theorem witness_ShortMessageIsReportedAsData : ∃ s t : State, ([0xBC] : List Byte).length < 16 ∧ s.program = verMsg [0xBC] ∧
    NoReset s ∧ NoCipherErr s ∧ core.run 4 s = .next t ∧ t.program = [] :=
  ⟨{ busy with program := verMsg [0xBC], sched := [.host, .cipherOk] }, _, by decide, rfl, by simp [NoReset], by simp [NoCipherErr],
    rfl, rfl⟩

theorem witness_VerifyResultGatesNothing : verifying.chk.vactive = true ∧ Reg.atOffset 0x0C ≠ .status := by decide

theorem witness_CipherOkDeliversBlock :
    (∃ s : State, s.sched.head? = some .cipherOk ∧ s.dec.busy = false) ∧
    (∃ (s : State) (r : Request), s.sched.head? = some .cipherOk ∧ s.dec.busy = true ∧ s.dec.req = some r) :=
  ⟨⟨{ State.reset with sched := [.cipherOk] }, rfl, rfl⟩, ⟨{ busy with sched := [.cipherOk] }, _, rfl, rfl, rfl⟩⟩

theorem witness_CipherErrAbandonsFrame : busy.dec.busy = true ∧ BlockInv busy := ⟨rfl, busy_inv⟩

theorem witness_IdleResponsesAreIgnored :
    { State.reset with sched := [.cipherOk] }.dec.busy = false ∧ { State.reset with sched := [.cipherOk] }.sched.head? = some .cipherOk ∧
    { State.reset with sched := [.cipherErr] }.sched.head? = some .cipherErr := ⟨rfl, rfl, rfl⟩

theorem witness_PortCarriesByteIAtBits8I : busy.dec.req = some ⟨Block.zero, Block.zero⟩ ∧ busy.dec.busy = true := by decide

theorem witness_HostReadReturnsRegister : HostMoves { State.reset with program := [.read (.window 0x3C) .word] } ∧
    { State.reset with program := [.read (.window 0x3C) .word] }.program = .read (.window 0x3C) .word :: [] ∧
    (0x3C : Offset).toNat % 4 = 0 := ⟨.inl rfl, rfl, rfl⟩

theorem witness_KeyAndOutBytesAreLittleEndian : (withDec { Decryptor.reset with key := aesKey }).dec.key = aesKey := rfl

theorem witness_ReadsHaveNoSideEffects : ∃ (s t : State) (rest rest' : List HostOp), HostMoves s ∧
    s.program = .read (.window 0x08) .word :: rest ∧ step s = .next t ∧ rest = .read (.window 0x08) .word :: rest' ∧ HostMoves t :=
  ⟨{ State.reset with program := [.read (.window 0x08) .word, .read (.window 0x08) .word] }, _, _, _, .inl rfl, rfl, rfl, rfl, .inl rfl⟩

theorem witness_ReadOnlyAndUnmappedIgnoreWrites :
    (0x3C : Offset) ∈ [(0x04 : Offset), 0x08, 0x0C, 0x10, 0x14, 0x18, 0x1C, 0x30, 0x34, 0x38, 0x3C] := by decide

theorem witness_KeyWriteLoadsFourBytes : opened.dec.dactive = true ∧ State.reset.dec.dactive = false ∧ (3 : Nat) < 4 ∧
    BlockInv busy ∧ busy.dec.busy = true := ⟨rfl, rfl, by decide, busy_inv, rfl⟩

theorem witness_AnsweredExactlyWhenAlignedWord : (0x3C : Offset).toNat % 4 = 0 ∧ AccessSize.half ≠ .word ∧ (0x3D : Offset).toNat % 4 ≠ 0 := by decide

theorem witness_OutsideWindowNotDecoded : (63 : Nat) < 64 ∧ ((0x0FFF : Nat) < 0x1000) ∧ (0x1000 + 64 ≤ (0x1040 : Nat)) := by decide

theorem witness_ResetSetsEveryElement : { busy with sched := [.reset] }.sched.head? = some .reset := rfl

theorem witness_StepKeepsInvariant : ∃ s t : State, BlockInv s ∧ s.dec.busy = true ∧ step s = .next t ∧ t.dec.ovalid = true :=
  ⟨{ busy with sched := [.cipherOk] }, _, by constructor <;> decide, rfl, rfl, rfl⟩

theorem witness_InvariantStatesGoOn : BlockInv held := held_inv

theorem witness_KeyFixedWhileFrameOpen : ∃ s t : State, step s = .next t ∧ t.dec.key ≠ s.dec.key :=
  ⟨{ State.reset with program := [writeTo (.key 0) 1] }, _, rfl, by decide⟩

theorem witness_OutputStableWhileValid : ∃ s t : State, step s = .next t ∧ t.dec.obuf ≠ s.dec.obuf ∧ BlockInv s :=
  ⟨{ held with sched := [.reset], dec := { held.dec with obuf := aesKey } }, _, rfl, by decide, by constructor <;> decide⟩

theorem witness_BusyClearedOnlyByResponseOrReset : ∃ s t : State, step s = .next t ∧ s.dec.busy = true ∧ t.dec.busy = false :=
  ⟨{ busy with sched := [.cipherOk] }, _, rfl, rfl, rfl⟩

theorem witness_EnginesAreIndependent : decryptCommand (.decByte 0) = true ∧ checksumCommand .verEnd = true := by decide

theorem witness_QuiescentStateStays : Quiescent State.reset ∧ NoReset { State.reset with sched := [.cipherOk, .host, .cipherErr] } :=
  ⟨⟨rfl, rfl⟩, by simp [NoReset]⟩

theorem witness_WaitIdleSpinsUnanswered : { busy with program := [waitIdle], sched := [.host] }.dec.busy = true ∧
    { busy with program := [waitIdle], sched := [.host] }.program = waitIdle :: [] ∧
    ∀ m ∈ { busy with program := [waitIdle], sched := [.host] }.sched, m = .host := ⟨rfl, rfl, by simp⟩

theorem witness_WaitIdleEndsOnceAnswered : ∃ (s : State) (r : Request), s.dec.busy = true ∧ s.dec.req = some r ∧
    s.program = waitIdle :: [] ∧ s.sched = List.replicate 2 .host ++ [.cipherOk] :=
  ⟨{ busy with program := [waitIdle], sched := List.replicate 2 .host ++ [.cipherOk] }, _, rfl, rfl, rfl, rfl⟩

/-- With a NOP after the chunk's bytes. -/
theorem witness_RequestDependsOnlyOnItsChunk : ∃ (bs : List Byte) (s : State), bs.length = 16 ∧ s.dec.dactive = true ∧
    s.dec.busy = false ∧ s.dec.ovalid = false ∧ s.dec.ifill = 0 ∧ s.program.filter HostOp.usesDecrypt = decFeed bs ∧ NoReset s ∧
    Move.cipherErr ∈ s.sched :=
  ⟨List.replicate 16 0xA5, { opened with program := decFeed (List.replicate 16 0xA5) ++ [cmd .nop], sched := [.cipherErr] },
    by decide, rfl, rfl, rfl, rfl, by decide, by simp [NoReset], by simp⟩

/-- The run that uses such a program up, with an idle cipher response in it. -/
theorem witness_RequestDependsOnlyOnItsChunk_run : ∃ t : State,
    core.run 18 { opened with program := decFeed (List.replicate 16 0xA5) ++ [cmd .nop], sched := [.cipherOk] } = .next t ∧
    t.program = [] := ⟨_, rfl, rfl⟩

theorem witness_RequestDependsOnlyOnItsChunk_alone : ∃ s : State, s.dec.dactive = true ∧ s.dec.busy = false ∧
    s.dec.ovalid = false ∧ s.dec.ifill = 0 ∧ s.program = decFeed (List.replicate 16 0xA5) ∧ HostOnly 16 s :=
  ⟨{ opened with program := decFeed (List.replicate 16 0xA5) }, rfl, rfl, rfl, rfl, rfl, by simp [HostOnly, opened, withDec, State.reset]⟩

/-- A frame of one byte, with an idle cipher response between its accesses. -/
theorem witness_FrameSequenceIsDecrypt : ∃ s t : State, s.dec.busy = false ∧ s.program = frameProgram [0xAB] ∧ NoReset s ∧
    NoCipherErr s ∧ core.run 4 s = .next t ∧ t.program = [] :=
  ⟨{ State.reset with program := frameProgram [0xAB], sched := [.host, .cipherOk, .host] }, _, rfl, rfl, by simp [NoReset],
    by simp [NoCipherErr], rfl, rfl⟩

theorem witness_FrameSequenceCompletes : { State.reset with program := frameProgram (List.replicate 20 0) }.dec.busy = false ∧
    { State.reset with program := frameProgram (List.replicate 20 0) }.program = frameProgram (List.replicate 20 0) := ⟨rfl, rfl⟩

theorem witness_VerifySequenceCompletes : ∃ s : State, s.program = verMsg [] ∧ HostOnly 2 s ∧ s.sched = [.host, .host, .reset] :=
  ⟨{ State.reset with program := verMsg [], sched := [.host, .host, .reset] }, rfl, by simp [HostOnly], rfl⟩

theorem witness_DecryptInvertsEncryptedFrames : ([0x01, 0x02, 0x03] : List Byte).length < 16 := by decide

end Sys2Proof.Tests
end

section
/-! The host's step at an answered read or write, and what it does at CMD (20_memory.md R51, R52; 10_state.md R43). -/

namespace Sys2Proof.Machine

/-- A word that decodes to a command executes as that command (R100). -/
theorem execute_of_decode {w : Word} {i : Instr} (h : decode w = .cmd i) (s : State) : execute w s = exec i s := by
  simp only [execute, h]

/-- The host's step at a write the block answers (R52). -/
theorem step_of_write {s : State} {off : Offset} {size : AccessSize} {v : Word} {rest : List HostOp} (hm : HostMoves s)
    (hp : s.program = .write (.window off) size v :: rest) (ha : answers off size = true) :
    step s = writeOffset off v (s.afterFetch rest) := by
  rw [step_of_access hm hp]
  exact if_pos ha

/-- The host's step at a read the block answers (R51). -/
theorem step_of_read {s : State} {off : Offset} {size : AccessSize} {rest : List HostOp} (hm : HostMoves s)
    (hp : s.program = .read (.window off) size :: rest) (ha : answers off size = true) :
    step s = .next (logRead off (s.afterFetch rest)) := by
  rw [step_of_access hm hp]
  exact if_pos ha

/-- Offset 0x00 is CMD's (R42). -/
theorem atOffset_zero : Reg.atOffset 0x00 = .cmd := rfl

/-- Writing CMD executes the word written (R43). -/
theorem writeOffset_cmd (w : Word) (s : State) : writeOffset 0x00 w s = execute w s := by
  rw [writeOffset, atOffset_zero, writeReg]

/-- CMD reads as 0 in every state (R43). -/
theorem readOffset_cmd (s : State) : readOffset 0x00 s = 0x00000000 := by
  rw [readOffset, atOffset_zero, readReg]

/-- Settles O6: CMD answers word accesses, so the step is the register's write, which executes the word, or its read, which
only logs the value 0. -/
theorem stepRunsDecodedCommand : Obligations.StepRunsDecodedCommand := by
  intro s w rest hm
  have ha : answers 0x00 .word = true := by decide
  constructor
  · intro hp
    have he : step s = execute w (s.afterFetch rest) := by rw [step_of_write hm hp ha, writeOffset_cmd]
    exact ⟨he, fun i hd => he.trans (execute_of_decode hd _)⟩
  · intro hp
    rw [step_of_read hm hp ha, logRead, readOffset_cmd]
    rfl

end Sys2Proof.Machine
end

section
/-! The host's accesses to the window (20_memory.md R51 to R58): which are answered, what a read returns, and what a write to
KEYn and to a register that ignores writes does. -/

namespace Sys2Proof.Machine

/-! ## Which accesses the block answers (R54) -/

/-- The block answers 32-bit accesses at multiples of 4, and no other (R54). -/
theorem answers_iff (off : Offset) (size : AccessSize) :
    answers off size = true ↔ size = .word ∧ off.toNat % 4 = 0 := by
  cases size with
  | byte => simp [answers]
  | half => simp [answers]
  | word => rw [answers_word]; simp

/-- An answered read is logged (R51). -/
theorem hostAccess_read {off : Offset} {size : AccessSize} (ha : answers off size = true) (s : State) :
    hostAccess (.read (.window off) size) s = .next (logRead off s) := if_pos ha

/-- An answered write writes the register at its offset (R52). -/
theorem hostAccess_write {off : Offset} {size : AccessSize} (ha : answers off size = true) (v : Word) (s : State) :
    hostAccess (.write (.window off) size v) s = writeOffset off v s := if_pos ha

/-- An answered POLL completes, whether or not its condition holds (R90). -/
theorem hostAccess_poll_next {off : Offset} (ha : answers off .word = true) (mask v : Word) (s : State) :
    ∃ t, hostAccess (.poll off mask v) s = .next t := by
  simp only [hostAccess, ha, if_true]
  split
  · exact ⟨_, rfl⟩
  · exact ⟨_, rfl⟩

/-- A read that is not answered is refused (R54). -/
theorem hostAccess_read_refused {off : Offset} {size : AccessSize} (ha : ¬answers off size = true) (s : State) :
    hostAccess (.read (.window off) size) s = .refused .accessNotAnswered := if_neg ha

/-- A write that is not answered is refused (R54). -/
theorem hostAccess_write_refused {off : Offset} {size : AccessSize} (ha : ¬answers off size = true) (v : Word) (s : State) :
    hostAccess (.write (.window off) size v) s = .refused .accessNotAnswered := if_neg ha

/-- A POLL that is not answered is refused (R54). -/
theorem hostAccess_poll_refused {off : Offset} (ha : ¬answers off .word = true) (mask v : Word) (s : State) :
    hostAccess (.poll off mask v) s = .refused .accessNotAnswered := if_neg ha

/-- Settles O39: `answers` is the condition of R54, an answered write completes because writing any register does, and an
unanswered access takes the refusing branch. -/
theorem answeredExactlyWhenAlignedWord : Obligations.AnsweredExactlyWhenAlignedWord := by
  intro off size mask v s
  refine ⟨fun hsize halign => ?_, fun hbad => ?_, fun halign => ?_⟩
  · have ha : answers off size = true := (answers_iff off size).2 ⟨hsize, halign⟩
    refine ⟨⟨_, hostAccess_read ha s⟩, ?_, hostAccess_poll_next (hsize ▸ ha) mask v s⟩
    rw [hostAccess_write ha]
    exact writeReg_next _ v s
  · have ha : ¬answers off size = true := by
      rw [answers_iff]
      rintro ⟨hsize, halign⟩
      exact hbad.elim (fun h => h hsize) (fun h => h halign)
    exact ⟨hostAccess_read_refused ha s, hostAccess_write_refused ha v s⟩
  · exact hostAccess_poll_refused (fun ha => halign ((answers_iff off .word).1 ha).2) mask v s

/-! ## What a read returns (R51), and that it changes nothing (R58) -/

/-- The image of STATUS stands at 0x04 (R42, R44). -/
theorem readOffset_status (s : State) : readOffset 0x04 s = statusWord s.dec s.chk s.err := rfl

/-- The image of CRC stands at 0x08 (R42, R45). -/
theorem readOffset_crc (s : State) : readOffset 0x08 s = crcWord s.chk := rfl

/-- The image of VRESULT stands at 0x0C (R42, R46). -/
theorem readOffset_vresult (s : State) : readOffset 0x0C s = vresultWord s.chk := rfl

/-- The image of DCOUNT stands at 0x10 (R42, R47). -/
theorem readOffset_dcount (s : State) : readOffset 0x10 s = dcountWord s.dec := rfl

/-- The image of ERR stands at 0x14 (R42, R48). -/
theorem readOffset_err (s : State) : readOffset 0x14 s = errWord s.err := rfl

/-- An unmapped offset reads as 0 (R56). -/
theorem readOffset_unmapped {off : Offset} (h : Reg.atOffset off = .unmapped) (s : State) :
    readOffset off s = 0x00000000 := by
  rw [readOffset, h, readReg]

/-- Settles O33: the step at an aligned read only logs the register, and each image is its register's definition. -/
theorem hostReadReturnsRegister : Obligations.HostReadReturnsRegister := by
  constructor
  · intro s off rest hm hp halign
    exact step_of_read hm hp ((answers_iff off .word).2 ⟨rfl, halign⟩)
  · intro s
    refine ⟨readOffset_cmd s, readOffset_status s, readOffset_crc s, readOffset_vresult s, readOffset_dcount s,
      readOffset_err s, readOffset_unmapped rfl s, readOffset_unmapped rfl s, fun n h => ⟨?_, ?_⟩⟩
    · exact readOffset_key s n h
    · exact readOffset_out s n h

/-- A read depends on the block alone (R51). -/
theorem SameBlock.readOffset_eq {s t : State} (h : SameBlock s t) (off : Offset) : readOffset off t = readOffset off s := by
  obtain ⟨hdec, hchk, herr⟩ := h
  cases hr : Reg.atOffset off <;> simp only [readOffset, hr, readReg, hdec, hchk, herr]

/-- A step in which the host reads is an answered read: it logs what the offset reads as and leaves the block (R51, R58). -/
theorem step_read_effect {s t : State} {off : Offset} {size : AccessSize} {rest : List HostOp} (hm : HostMoves s)
    (hp : s.program = .read (.window off) size :: rest) (ht : step s = .next t) :
    answers off size = true ∧ SameBlock s t ∧ t.program = rest ∧ t.reads = s.reads ++ [(off, readOffset off s)] := by
  by_cases ha : answers off size = true
  · rw [step_of_read hm hp ha] at ht
    cases ht
    exact ⟨ha, ⟨rfl, rfl, rfl⟩, rfl, rfl⟩
  · rw [step_of_access hm hp, hostAccess_read_refused ha] at ht
    cases ht

/-- Settles O36: the read leaves the block, on which alone reads depend, so the second read logs the same value again. -/
theorem readsHaveNoSideEffects : Obligations.ReadsHaveNoSideEffects := by
  intro s t off rest hm hp ht
  obtain ⟨ha, hblock, hprog, hreads⟩ := step_read_effect hm hp ht
  refine ⟨hblock, hprog, hblock.readOffset_eq, fun rest' hrest hmt => ?_⟩
  have hu := step_of_read hmt (hprog.trans hrest) ha
  obtain ⟨-, -, -, hreads'⟩ := step_read_effect hmt (hprog.trans hrest) hu
  refine ⟨readOffset off s, _, hreads, hu, ?_⟩
  rw [hreads', hreads, hblock.readOffset_eq, List.append_assoc]
  rfl

/-! ## What a write does (R55 to R57) -/

/-- Writing a register that is neither CMD nor a KEYn has no effect (R55, R56). -/
theorem writeReg_ignored {r : Reg} (hcmd : r ≠ .cmd) (hkey : ∀ n, r ≠ .key n) (v : Word) (s : State) :
    writeReg r v s = .next s := by
  obtain ⟨t, ht⟩ := writeReg_next r v s
  obtain rfl | ⟨hr, -⟩ | ⟨n, hr, -⟩ := writeReg_cases ht
  · exact ht
  · exact absurd hr hcmd
  · exact absurd hr (hkey n)

/-- Settles O37: the offsets listed are word-aligned and name neither CMD nor a KEYn, the only registers a write changes. -/
theorem readOnlyAndUnmappedIgnoreWrites : Obligations.ReadOnlyAndUnmappedIgnoreWrites := by
  have hmap : ∀ off ∈ [(0x04 : Offset), 0x08, 0x0C, 0x10, 0x14, 0x18, 0x1C, 0x30, 0x34, 0x38, 0x3C],
      answers off .word = true ∧ Reg.atOffset off ≠ .cmd ∧ ∀ n, Reg.atOffset off ≠ .key n := by decide
  intro s v
  refine ⟨fun off hoff => ?_, readOffset_cmd s, readOffset_unmapped rfl s, readOffset_unmapped rfl s⟩
  obtain ⟨ha, hcmd, hkey⟩ := hmap off hoff
  rw [hostAccess_write ha]
  exact writeReg_ignored hcmd hkey v s

/-- The word at 0x20 + 4n is answered and is KEYn (R42, R54). -/
theorem answers_atOffset_key : ∀ n : Fin 4,
    answers (BitVec.ofNat 6 (0x20 + 4 * n.val)) .word = true ∧
      Reg.atOffset (BitVec.ofNat 6 (0x20 + 4 * n.val)) = .key n := by decide

/-- The host's write to KEYn is `KeyWrite` (R52, R57). -/
theorem hostAccess_write_key (n : Fin 4) (v : Word) (s : State) :
    hostAccess (.write (.window (BitVec.ofNat 6 (0x20 + 4 * n.val))) .word v) s = .next (keyWrite n v s) := by
  obtain ⟨ha, hr⟩ := answers_atOffset_key n
  rw [hostAccess_write ha, writeOffset, hr, writeReg]

/-- Settles O38: the access is `KeyWrite`, whose two cases are the locked and the open KEY; what the open one stores is read
off byte by byte. -/
theorem keyWriteLoadsFourBytes : Obligations.KeyWriteLoadsFourBytes := by
  intro s n v hn
  rw [hostAccess_write_key ⟨n, hn⟩ v s]
  refine ⟨fun hlocked => ?_, fun hopen => ?_, fun hinv => hinv.busy_dactive⟩
  · obtain ⟨-, hwrite⟩ | ⟨hopen, -⟩ := keyWrite_cases ⟨n, hn⟩ v s
    · rw [hwrite]
    · exact absurd (hlocked.symm.trans hopen) (by decide)
  · obtain ⟨hlocked, -⟩ | ⟨-, hwrite⟩ := keyWrite_cases ⟨n, hn⟩ v s
    · exact absurd (hlocked.symm.trans hopen) (by decide)
    · exact ⟨setBlockWord s.dec.key ⟨n, hn⟩ v, by rw [hwrite], getElem_setBlockWord s.dec.key n hn v⟩

end Sys2Proof.Machine
end

section
/-! The command words that are legal and those that are not (30_encoding.md R84 to R87): a word decodes to a command exactly
when its fields are that command's, and every other word is only recorded. -/

namespace Sys2Proof

/-! ## Commands by their fields -/

/-- The fields that R84 accepts are those of the commands of R83. -/
theorem exists_instr_fields_iff (op imm : Byte) :
    (∃ i : Instr, i.op = op ∧ i.imm = imm) ↔
      op ∈ [0x11#8, 0x21, 0x31] ∨ (op ∈ [0x00#8, 0x01, 0x10, 0x12, 0x13, 0x20, 0x30, 0x32] ∧ imm = 0) := by
  constructor
  · rintro ⟨i, rfl, rfl⟩
    cases i <;> simp [Instr.op, Instr.imm]
  · simp only [List.mem_cons, List.not_mem_nil, or_false]
    rintro ((rfl | rfl | rfl) | ⟨rfl | rfl | rfl | rfl | rfl | rfl | rfl | rfl, rfl⟩)
    · exact ⟨.decByte imm, rfl, rfl⟩
    · exact ⟨.crcByte imm, rfl, rfl⟩
    · exact ⟨.verByte imm, rfl, rfl⟩
    · exact ⟨.nop, rfl, rfl⟩
    · exact ⟨.errClr, rfl, rfl⟩
    · exact ⟨.decStart, rfl, rfl⟩
    · exact ⟨.decPop, rfl, rfl⟩
    · exact ⟨.decEnd, rfl, rfl⟩
    · exact ⟨.crcInit, rfl, rfl⟩
    · exact ⟨.verStart, rfl, rfl⟩
    · exact ⟨.verEnd, rfl, rfl⟩

/-! ## The opcode map (R83), by the kind of the code -/

/-- An arm without an operand answers its command only on IMM8 = 0. -/
theorem Decoded.plain_eq_cmd {i j : Instr} {imm : Byte} : Decoded.plain i imm = .cmd j ↔ imm = 0 ∧ i = j := by
  unfold Decoded.plain
  split
  · next h => simp only [Decoded.cmd.injEq, h, true_and]
  · next h => exact iff_of_false (by simp) fun hc => h hc.1

/-- The code of a command without an operand. -/
theorem decodeOp_plain {i : Instr} (h : i.operand = none) (imm : Byte) : decodeOp i.op imm = .plain i imm := by
  cases i with
  | decByte | crcByte | verByte => cases h
  | _ => rfl

/-- A code of R86's ranges meets no arm of the map but the last. -/
theorem decodeOp_reserved {op : Byte} (imm : Byte)
    (h : 0x02 ≤ op.toNat ∧ op.toNat ≤ 0x0F ∨ 0x14 ≤ op.toNat ∧ op.toNat ≤ 0x1F ∨ 0x22 ≤ op.toNat ∧ op.toNat ≤ 0x2F ∨
      0x33 ≤ op.toNat ∧ op.toNat ≤ 0xFF) : decodeOp op imm = .illegal .reservedOp := by
  unfold decodeOp
  split
  case h_12 => rfl
  all_goals omega

/-- The map answers a command exactly on that command's fields. -/
theorem decodeOp_eq_cmd_iff {op imm : Byte} {i : Instr} : decodeOp op imm = .cmd i ↔ i.op = op ∧ i.imm = imm := by
  constructor
  · intro h
    unfold decodeOp at h
    split at h
    case h_12 => cases h
    case h_4 hop | h_8 hop | h_10 hop =>
      cases h
      exact ⟨(BitVec.eq_of_toNat_eq hop).symm, rfl⟩
    all_goals
      rename_i hop
      obtain ⟨rfl, rfl⟩ := Decoded.plain_eq_cmd.1 h
      exact ⟨(BitVec.eq_of_toNat_eq hop).symm, rfl⟩
  · rintro ⟨rfl, rfl⟩
    cases i <;> rfl

/-! ## Whole words -/

/-- A word decodes to a command exactly when RSV is 0 and the other fields are the command's (R84). -/
theorem decode_eq_cmd_iff {w : Word} {i : Instr} :
    decode w = .cmd i ↔ rsvOf w = 0 ∧ i.op = opOf w ∧ i.imm = immOf w := by
  unfold decode
  split
  · next h => simp only [decodeOp_eq_cmd_iff, h, true_and]
  · next h => exact iff_of_false (by simp) fun hc => h hc.1

/-- Decoding is total (R84): a word is Illegal exactly when it is no command. -/
theorem exists_illegal_iff (d : Decoded) : (∃ why, d = .illegal why) ↔ ¬∃ i, d = .cmd i := by
  cases d <;> simp

/-- A word whose RSV is not 0 (R85). -/
theorem decode_of_rsv_ne_zero {w : Word} (h : rsvOf w ≠ 0) : decode w = .illegal .reservedField := if_neg h

/-- A word written with RSV = 0 goes through the opcode map (R84). -/
theorem decode_commandWord (op imm : Byte) : decode (commandWord op imm) = decodeOp op imm := by
  simp [decode]

namespace Machine

/-- An Illegal word is only recorded, with its OP (R84, R100). -/
theorem execute_of_illegal {w : Word} {why : IllegalReason} (h : decode w = .illegal why) (s : State) :
    execute w s = .next (recordError .illegal (opOf w) s) := by
  simp only [execute, h, raise]

/-- Settles O3: a word is Illegal exactly when no command has its fields, and the fields of commands are those R84 lists. -/
theorem illegalWordsExactly : Obligations.IllegalWordsExactly := by
  intro w s
  refine ⟨?_, fun ⟨_, h⟩ => execute_of_illegal h s, fun i h => (decode_eq_cmd_iff.1 h).2⟩
  calc (∃ why, decode w = .illegal why)
      _ ↔ ¬∃ i, decode w = .cmd i := exists_illegal_iff _
      _ ↔ ¬(rsvOf w = 0 ∧ ∃ i : Instr, i.op = opOf w ∧ i.imm = immOf w) := by
        simp only [decode_eq_cmd_iff, exists_and_left]
      _ ↔ rsvOf w ≠ 0 ∨ ¬∃ i : Instr, i.op = opOf w ∧ i.imm = immOf w := not_and_or
      _ ↔ _ := or_congr_right (not_congr (exists_instr_fields_iff _ _))

/-- An Illegal word of the given OP and IMM8 is only recorded, with that OP (R84). -/
theorem commandWord_illegal_only_recorded {op imm : Byte} {why : IllegalReason} (h : decodeOp op imm = .illegal why) (s : State) :
    decode (commandWord op imm) = .illegal why ∧
      execute (commandWord op imm) s = .next (recordError .illegal op s) := by
  have hd : decode (commandWord op imm) = .illegal why := (decode_commandWord op imm).trans h
  exact ⟨hd, by rw [execute_of_illegal hd, opOf_commandWord]⟩

/-- Settles O4: each of the three encodings decodes to its own reason, and an Illegal word is only recorded. -/
theorem reservedEncodingsOnlyRecord : Obligations.ReservedEncodingsOnlyRecord := by
  intro w s
  refine ⟨fun hrsv => ?_, fun op imm hop => ?_, fun i imm hi himm => ?_⟩
  · have hd := decode_of_rsv_ne_zero hrsv
    exact ⟨hd, execute_of_illegal hd s⟩
  · exact commandWord_illegal_only_recorded (decodeOp_reserved imm hop) s
  · have hstray : decodeOp i.op imm = .illegal .strayOperand := (decodeOp_plain hi imm).trans (if_neg himm)
    exact commandWord_illegal_only_recorded hstray s

end Machine

end Sys2Proof
end

section
/-! The control commands NOP and ERR.CLR (40_control.md R101, R102), and what one step can do to the error record
(60_exceptions.md R182, R188). -/

namespace Sys2Proof

/-! ## A command's word with a stray operand (R87) -/

/-- IMM8 is the low byte of a command word (R81). -/
theorem commandWord_eq_or (op imm : Byte) : commandWord op imm = commandWord op 0 ||| imm.setWidth 32 := by
  apply BitVec.eq_of_getLsbD_eq
  intro i hi
  simp only [commandWord, BitVec.getLsbD_or, BitVec.getLsbD_append, BitVec.getLsbD_setWidth]
  by_cases h : i < 8
  · simp [h, hi, show i < 8 + 8 by omega]
  · simp [h, BitVec.getLsbD_of_ge imm i (by omega)]

/-- The IMM8 field of a command without an operand is 0 (R81). -/
theorem Instr.imm_of_operand_none {i : Instr} (h : i.operand = none) : i.imm = 0 := by
  cases i with
  | decByte | crcByte | verByte => cases h
  | _ => rfl

namespace Machine

/-- The word of a command without an operand, with a byte put in its IMM8, is only recorded, with the command's OP (R87). -/
theorem execute_stray_operand {i : Instr} {b : Byte} (hi : i.operand = none) (hb : b ≠ 0) (s : State) :
    execute (encode i ||| b.setWidth 32) s = .next (recordError .illegal i.op s) := by
  have hw : encode i ||| b.setWidth 32 = commandWord i.op b := by
    rw [encode, Instr.imm_of_operand_none hi, ← commandWord_eq_or]
  have hstray : decodeOp i.op b = .illegal .strayOperand := (decodeOp_plain hi b).trans (if_neg hb)
  rw [hw]
  exact (commandWord_illegal_only_recorded hstray s).2

/-! ## The two commands -/

/-- NOP fails no check and has no effect (R101). -/
theorem exec_nop (s : State) : exec .nop s = .next s := exec_of_ok rfl

/-- ERR.CLR fails no check and clears the record (R102). -/
theorem exec_errClr (s : State) : exec .errClr s = .next (clearError s) := exec_of_ok rfl

/-- Settles O11: NOP's effect is the state itself, and its word with a byte in IMM8 is a stray operand's. -/
theorem nopHasNoEffect : Obligations.NopHasNoEffect := by
  have hword : encode .nop = 0x00000000 := by decide
  refine ⟨hword, fun s => ⟨exec_nop s, readOffset_cmd s, fun b hb => ?_⟩⟩
  rw [← hword]
  exact execute_stray_operand rfl hb s

/-- STATUS.ERR as the host reads it (R44). -/
theorem status_err (s : State) : (readOffset 0x04 s).getLsbD 7 = errFlag s.err := by
  rw [readOffset_status]
  simp only [statusWord, BitVec.getLsbD_append]
  simp

/-- In a state of the invariant a record whose code is 0 is the clear record (R41). -/
theorem BlockInv.err_eq_clear {s : State} (hinv : BlockInv s) (h : s.err.code = 0) : s.err = ErrRecord.clear := by
  obtain ⟨hopc, hmulti⟩ := hinv.clear_record h
  calc s.err = ⟨s.err.code, s.err.opc, s.err.multi⟩ := rfl
    _ = ErrRecord.clear := by rw [h, hopc, hmulti]; rfl

/-! ## What happens to the error record -/

/-- A command leaves the record, records an error in it, or is ERR.CLR (R100). -/
theorem exec_err_cases {i : Instr} {s t : State} (h : exec i s = .next t) :
    t.err = s.err ∨ (∃ c o, t.err = s.err.record c o) ∨ i = .errClr := by
  obtain ⟨c, -, rfl⟩ | ⟨-, rfl⟩ := exec_cases h
  · exact .inr (.inl ⟨c, i.op, rfl⟩)
  · by_cases hi : i = .errClr
    · exact .inr (.inr hi)
    · exact .inl (effect_err hi s)

/-- A host access leaves the record, records an error in it, or writes ERR.CLR to CMD (R57, R100). -/
theorem hostAccess_err_cases {op : HostOp} {s t : State} (h : hostAccess op s = .next t) :
    t.err = s.err ∨ (∃ c o, t.err = s.err.record c o) ∨
      ∃ off size v, op = .write (.window off) size v ∧ Reg.atOffset off = .cmd ∧ decode v = .cmd .errClr := by
  obtain rfl | ⟨off, rfl⟩ | ⟨off, mask, v, -, rfl⟩ | ⟨off, size, v, n, -, -, rfl⟩ | ⟨off, size, v, hop, hr, he⟩ :=
    hostAccess_cases h
  · exact .inl rfl
  · exact .inl rfl
  · exact .inl rfl
  · obtain ⟨-, e⟩ | ⟨-, e⟩ := keyWrite_cases n v s
    · exact .inr (.inl ⟨.keylock, 0x00, by rw [e, recordError_err]⟩)
    · exact .inl (by rw [e])
  · obtain ⟨-, rfl⟩ | ⟨i, hd, hex⟩ := execute_cases he
    · exact .inr (.inl ⟨.illegal, opOf v, rfl⟩)
    · obtain herr | hrec | rfl := exec_err_cases hex
      · exact .inl herr
      · exact .inr (.inl hrec)
      · exact .inr (.inr ⟨off, size, v, hop, hr, hd⟩)

/-- The host's next access writes the word of ERR.CLR to CMD, and the host moves. -/
def HostClearsError (s : State) : Prop :=
  HostMoves s ∧ ∃ off v rest, s.program = .write (.window off) .word v :: rest ∧ Reg.atOffset off = .cmd ∧
    decode v = .cmd .errClr

/-- The step leaves the record, records an error in it, is a reset, or is the host's writing ERR.CLR (R182, R188). -/
theorem step_err_cases {s t : State} (h : step s = .next t) :
    t.err = s.err ∨ (∃ c o, t.err = s.err.record c o) ∨ s.sched.head? = some .reset ∨ HostClearsError s := by
  obtain ⟨-, -, rfl⟩ | ⟨hm, op, rest, hp, ha⟩ | ⟨-, hc⟩ | ⟨-, hc⟩ | ⟨hreset, -⟩ := step_cases h
  · exact .inl rfl
  · obtain herr | hrec | ⟨off, size, v, rfl, hr, hd⟩ := hostAccess_err_cases ha
    · exact .inl herr
    · exact .inr (.inl hrec)
    · have hans : answers off size = true := by
        by_contra hans
        rw [hostAccess_write_refused hans] at ha
        cases ha
      obtain ⟨rfl, -⟩ := (answers_iff off size).1 hans
      exact .inr (.inr (.inr ⟨hm, off, v, rest, hp, hr, hd⟩))
  · obtain ⟨-, rfl⟩ | ⟨-, r, -, rfl⟩ := cipherOkMove_cases hc
    · exact .inl rfl
    · exact .inl rfl
  · rw [cipherErrMove_eq] at hc
    cases hc
    split
    · exact .inr (.inl ⟨.cipher, 0x00, rfl⟩)
    · exact .inl rfl
  · exact .inr (.inr (.inl hreset))

/-- A step that takes the record from an error to none is a reset or the host's writing ERR.CLR (R102, R188). -/
theorem step_clears_error {s t : State} (h : step s = .next t) (hs : s.err.code ≠ 0) (ht : t.err.code = 0) :
    s.sched.head? = some .reset ∨ HostClearsError s := by
  obtain herr | ⟨c, o, herr⟩ | hcleared := step_err_cases h
  · exact absurd (herr ▸ ht) hs
  · exact absurd (herr ▸ ht) (s.err.record_code_ne c o)
  · exact hcleared

/-- Settles O12: ERR.CLR's effect is the clear record, its word with a byte in IMM8 is a stray operand's, and of the things a step
can do to the record only a reset and the host's writing ERR.CLR take a code back to 0. -/
theorem errClrClearsRecord : Obligations.ErrClrClearsRecord := by
  have hword : encode .errClr = 0x00000100 := by decide
  refine ⟨hword, fun s => ⟨exec_errClr s, fun t ht => ?_, fun b hb => ?_, fun hinv hcode => ?_, fun t => step_clears_error⟩⟩
  · rw [exec_errClr] at ht
    cases ht
    rw [status_err]
    rfl
  · rw [← hword]
    refine ⟨_, execute_stray_operand rfl hb s, ErrRecord.record_code_ne _ _ _, fun hset => ?_, fun hclear => ?_⟩
    · rw [recordError, ErrRecord.record_of_set hset]
    · rw [recordError, ErrRecord.record_of_clear hclear]
      rfl
  · rw [exec_errClr, clearError, ← hinv.err_eq_clear hcode]

end Machine

end Sys2Proof
end

section
/-! The cipher port (41_decrypt.md R114 to R116): the byte order of its 128-bit buses (60_exceptions.md R191), a successful
response and the responses that are ignored. -/

namespace Sys2Proof.Machine

/-! ## The bytes on a 128-bit bus (R191) -/

/-- Byte `4n+k` on the port is byte `k` of register word `n`, which stands at bits `[32n+31:32n]`. -/
theorem extractLsb'_portBits_word (a : Block) (n k : Nat) (hn : n < 4) (hk : k < 4) :
    (portBits a).extractLsb' (8 * (4 * n + k)) 8 = byteOf (blockWord a ⟨n, hn⟩) k := by
  unfold portBits
  match n, hn with
  | 0, _ | 1, _ | 2, _ | 3, _ =>
    simp (disch := omega) only [BitVec.extractLsb'_append_eq_of_add_le, BitVec.extractLsb'_append_eq_of_le, byteOf]
    congr 1
    omega

/-- Byte `i` of a block is at bits `[8i+7:8i]` of the port (R191). -/
theorem extractLsb'_portBits (a : Block) (i : Nat) (h : i < 16) : (portBits a).extractLsb' (8 * i) 8 = a[i] := by
  have hi : 4 * (i / 4) + i % 4 = i := Nat.div_add_mod i 4
  calc (portBits a).extractLsb' (8 * i) 8
      _ = (portBits a).extractLsb' (8 * (4 * (i / 4) + i % 4)) 8 := by rw [hi]
      _ = byteOf (blockWord a ⟨i / 4, by omega⟩) (i % 4) := extractLsb'_portBits_word a _ _ _ (by omega)
      _ = a[4 * (i / 4) + i % 4] := byteOf_blockWord a _ _ _ (by omega)
      _ = a[i] := by simp only [hi]

/-- `rsp_block` while a request is latched (R114, R191). -/
theorem rspBlock_of_request {s : State} {r : Request} (h : s.dec.req = some r) :
    rspBlock s = some (portBits (Config.decryptBlock r.key r.blk)) := by
  rw [rspBlock, h, Option.map_some]

/-! ## The cipher agent's moves -/

/-- The step in which the cipher agent answers with success. -/
theorem step_of_cipherOk {s : State} (h : s.sched.head? = some .cipherOk) :
    step s = cipherOkMove { s with sched := s.sched.tail } := by
  obtain ⟨ms, hms⟩ := List.head?_eq_some_iff.1 h
  simp only [step, hms, List.tail_cons]

/-- The step in which the cipher agent answers with an error. -/
theorem step_of_cipherErr {s : State} (h : s.sched.head? = some .cipherErr) :
    step s = cipherErrMove { s with sched := s.sched.tail } := by
  obtain ⟨ms, hms⟩ := List.head?_eq_some_iff.1 h
  simp only [step, hms, List.tail_cons]

/-- A success with no request outstanding is ignored (R116). -/
theorem cipherOkMove_of_idle {s : State} (h : s.dec.busy = false) : cipherOkMove s = .next s := by
  simp [cipherOkMove, h]

/-- A failure with no request outstanding is ignored, whether or not the port can fail (R116). -/
theorem cipherErrMove_of_idle {s : State} (h : s.dec.busy = false) : cipherErrMove s = .next s := by
  simp [cipherErrMove_eq, h]

/-- A success with a request outstanding delivers its block (R114). -/
theorem cipherOkMove_of_request {s : State} {r : Request} (hbusy : s.dec.busy = true) (hreq : s.dec.req = some r) :
    cipherOkMove s = .next { s with dec := deliverBlock r s.dec } := by
  simp [cipherOkMove, hbusy, hreq]

/-- BLKCNT counts up modulo 2^16 (R29). -/
theorem blkcnt_succ (n : BitVec 16) : n + 1 = BitVec.ofNat 16 ((n.toNat + 1) % 2 ^ 16) := by
  apply BitVec.eq_of_toNat_eq
  simp [BitVec.toNat_add]

/-- Settles O29: without a request the response is ignored; with one it delivers the block that `rsp_block` carries, whose bytes
are those of the block on a port. -/
theorem cipherOkDeliversBlock : Obligations.CipherOkDeliversBlock := by
  intro s hok
  refine ⟨fun hidle => ?_, fun r hbusy hreq => ⟨?_, _, rspBlock_of_request hreq, extractLsb'_portBits _⟩⟩
  · rw [step_of_cipherOk hok]
    exact cipherOkMove_of_idle hidle
  · rw [step_of_cipherOk hok, ← blkcnt_succ]
    exact cipherOkMove_of_request hbusy hreq

/-- Settles O31: either response is its agent's move, which without a request leaves the state it finds. -/
theorem idleResponsesAreIgnored : Obligations.IdleResponsesAreIgnored := by
  rintro s hidle (hok | herr)
  · rw [step_of_cipherOk hok]
    exact cipherOkMove_of_idle hidle
  · rw [step_of_cipherErr herr]
    exact cipherErrMove_of_idle hidle

end Sys2Proof.Machine
end

section
/-! The frame decryptor's commands (41_decrypt.md R111, R112, R117, R118): the checks each fails in the order of
60_exceptions.md R183, and its effect where it fails none. -/

namespace Sys2Proof.Machine

/-! ## A command by its checks (R183) -/

/-- PHASE comes before the other checks. -/
theorem exec_of_phaseError {i : Instr} {s : State} (hphase : phaseError i s = true) :
    exec i s = .next (recordError .phase i.op s) := exec_of_error (if_pos hphase)

/-- BUSY comes after PHASE. -/
theorem exec_of_busyError {i : Instr} {s : State} (hphase : phaseError i s = false) (hbusy : busyError i s = true) :
    exec i s = .next (recordError .busy i.op s) := exec_of_error (by simp [firstError, hphase, hbusy])

/-- OVERRUN is the last check. -/
theorem exec_of_overrunError {i : Instr} {s : State} (hphase : phaseError i s = false) (hbusy : busyError i s = false)
    (hoverrun : overrunError i s = true) : exec i s = .next (recordError .overrun i.op s) :=
  exec_of_error (by simp [firstError, hphase, hbusy, hoverrun])

/-- A command that passes the three checks has its effect. -/
theorem exec_of_noError {i : Instr} {s : State} (hphase : phaseError i s = false) (hbusy : busyError i s = false)
    (hoverrun : overrunError i s = false) : exec i s = .next (effect i s) :=
  exec_of_ok (by simp [firstError, hphase, hbusy, hoverrun])

/-! ## The four commands -/

/-- Settles O13: DEC.START has BUSY as its only check, its effect is the opened frame, and its word with a byte in IMM8 is a
stray operand's. -/
theorem decStartOpensFrame : Obligations.DecStartOpensFrame := by
  have hword : encode .decStart = 0x00001000 := by decide
  refine ⟨hword, fun s => ⟨fun hbusy => ?_, fun hidle => ?_, fun b hb => ?_⟩⟩
  · exact exec_of_busyError rfl hbusy
  · exact exec_of_noError rfl hidle rfl
  · rw [← hword]
    exact execute_stray_operand rfl hb s

/-- The word of DEC.BYTE carries the byte in IMM8 (R81, R83). -/
theorem encode_decByte (b : Byte) : encode (.decByte b) = 0x00001100 ||| b.setWidth 32 := commandWord_eq_or 0x11 b

/-- A byte that does not complete its chunk goes to IBUF[IFILL] (R112). -/
theorem acceptByte_of_not_last {d : Decryptor} (b : Byte) (h : d.ifill ≠ 15) :
    acceptByte b d = { d with ibuf := d.ibuf.set d.ifill.toNat b d.ifill.isLt, ifill := d.ifill + 1 } := if_neg h

/-- The byte that completes its chunk goes to IBUF[15], and the request latches the buffer with it in it (R112, R113). -/
theorem acceptByte_of_last {d : Decryptor} (b : Byte) (h : d.ifill = 15) :
    acceptByte b d = { d with
      ibuf := d.ibuf.set 15 b
      req := some { blk := d.ibuf.set 15 b, key := d.key }
      busy := true
      ifill := 0 } := by
  have hstore : storeAt d.ibuf d.ifill b = d.ibuf.set 15 b := by rw [h]; rfl
  obtain ⟨-, haccept⟩ | ⟨hne, -⟩ := acceptByte_cases b d
  · rw [haccept, hstore]
  · exact absurd h hne

section
variable {s : State} (hopen : s.dec.dactive = true)
include hopen

/-- An open frame passes the PHASE check of DEC.BYTE (R112). -/
theorem phaseError_decByte_of_open (b : Byte) : phaseError (.decByte b) s = false := by simp [phaseError, hopen]

/-- An open frame passes the PHASE check of DEC.END (R118). -/
theorem phaseError_decEnd_of_open : phaseError .decEnd s = false := by simp [phaseError, hopen]

/-- DEC.BYTE with a frame open, no request outstanding and no block held accepts the byte (R112). -/
theorem exec_decByte_of_accepted (b : Byte) (hidle : s.dec.busy = false) (hfree : s.dec.ovalid = false) :
    exec (.decByte b) s = .next { s with dec := acceptByte b s.dec } :=
  exec_of_noError (phaseError_decByte_of_open hopen b) hidle hfree

end

/-- Settles O14: the three checks of DEC.BYTE in order, then the accepted byte, which completes its chunk exactly at IFILL = 15. -/
theorem decByteFeedsTheChunk : Obligations.DecByteFeedsTheChunk := by
  intro b s
  refine ⟨encode_decByte b, fun hclosed => ?_, fun hopen hbusy => ?_, fun hopen hidle hheld => ?_,
    fun hopen hidle hfree hfill => ?_, fun hopen hidle hfree hfill => ?_⟩
  · exact exec_of_phaseError (by simp [phaseError, hclosed])
  · exact exec_of_busyError (phaseError_decByte_of_open hopen b) hbusy
  · exact exec_of_overrunError (phaseError_decByte_of_open hopen b) hidle hheld
  · rw [exec_decByte_of_accepted hopen b hidle hfree, acceptByte_of_not_last b hfill]
  · rw [exec_decByte_of_accepted hopen b hidle hfree, acceptByte_of_last b hfill]

/-- In a state of the invariant no request is outstanding while a block is held (R41). -/
theorem BlockInv.busy_of_ovalid {s : State} (hinv : BlockInv s) (hheld : s.dec.ovalid = true) : s.dec.busy = false := by
  cases hbusy : s.dec.busy with
  | false => rfl
  | true => exact absurd (hheld.symm.trans (hinv.busy_ovalid hbusy)) (by decide)

/-- Settles O15: DEC.POP has PHASE as its only check, which asks for a held block and for no open frame. -/
theorem decPopReleasesBlock : Obligations.DecPopReleasesBlock := by
  have hword : encode .decPop = 0x00001200 := by decide
  refine ⟨hword, fun s => ⟨fun hfree => ?_, fun hheld => ?_, fun b hb => ?_, BlockInv.busy_of_ovalid⟩⟩
  · exact exec_of_phaseError (by simp [phaseError, hfree])
  · exact exec_of_noError (by simp [phaseError, hheld]) rfl rfl
  · rw [← hword]
    exact execute_stray_operand rfl hb s

/-- Settles O16: DEC.END checks PHASE, then BUSY; its effect is the closed frame. -/
theorem decEndDropsTail : Obligations.DecEndDropsTail := by
  have hword : encode .decEnd = 0x00001300 := by decide
  refine ⟨hword, fun s => ⟨fun hclosed => ?_, fun hopen hbusy => ?_, fun hopen hidle => ?_, fun b hb => ?_⟩⟩
  · exact exec_of_phaseError (by simp [phaseError, hclosed])
  · exact exec_of_busyError (phaseError_decEnd_of_open hopen) hbusy
  · exact exec_of_noError (phaseError_decEnd_of_open hopen) hidle rfl
  · rw [← hword]
    exact execute_stray_operand rfl hb s

end Sys2Proof.Machine
end

section
/-! CRC-16 (42_crc.md R141, R143): the byte update as an iterated bit rule, and CRC.INIT. -/

namespace Sys2Proof.Machine

/-! ## The byte update -/

/-- The shifts of a byte update are one bit rule, iterated (R141). -/
theorem crcShifts_eq_iterate (n : Nat) (c : Half) : crcShifts n c = crcShift^[n] c := by
  induction n generalizing c with
  | zero => rfl
  | succ n ih => rw [crcShifts, ih, Function.iterate_succ_apply]

/-- A widened byte has nothing in its high byte (R82). -/
theorem highByte_zext16 (b : Byte) : (zext16 b).extractLsb' 8 8 = 0 := by
  refine BitVec.eq_of_getLsbD_eq fun i _ => ?_
  rw [zext16, BitVec.extractLsb'_setWidth_of_le (Nat.le_refl 16), BitVec.getLsbD_extractLsb',
    BitVec.getLsbD_of_ge b (8 + i) (Nat.le_add_right 8 i), Bool.and_false]
  exact BitVec.getLsbD_zero.symm

/-- XOR with a widened byte reaches the low byte only (R141). -/
theorem highByte_xor_zext16 (c : Half) (b : Byte) : (c ^^^ zext16 b).extractLsb' 8 8 = c.extractLsb' 8 8 := by
  rw [BitVec.extractLsb'_xor, highByte_zext16]
  exact BitVec.xor_zero

/-- Settles O17: the eight shifts of the byte update are the eighth iterate of `crcShift`, which is R141's bit rule by definition. -/
theorem crcStepIsTheBitRule : Obligations.CrcStepIsTheBitRule :=
  fun c b => ⟨crcShifts_eq_iterate 8 (c ^^^ zext16 b), highByte_xor_zext16 c b⟩

/-! ## CRC.INIT -/

/-- Settles O18: CRC.INIT has PHASE as its only check, which is VACTIVE; its effect is the seed in CRC, and its word with a byte in
IMM8 is a stray operand's. -/
theorem crcInitLoadsSeed : Obligations.CrcInitLoadsSeed := by
  have hword : encode .crcInit = 0x00002000 := by decide
  refine ⟨hword, fun s => ⟨fun hactive => ?_, fun hinactive => ?_, fun b hb => ?_⟩⟩
  · exact exec_of_phaseError hactive
  · exact exec_of_noError hinactive rfl rfl
  · rw [← hword]
    exact execute_stray_operand rfl hb s

end Sys2Proof.Machine
end

section
/-! The message verifier's commands (43_verify.md R161 to R163), what a held result stands for (R164), and that the result gates
nothing (R166). -/

namespace Sys2Proof.Machine

/-! ## VER.START -/

/-- VER.START fails no check and opens the verify (R161). -/
theorem exec_verStart (s : State) : exec .verStart s = .next { s with chk := openVerify s.chk } := exec_of_ok rfl

/-- Settles O22: VER.START checks nothing, its effect is the opened verify, and its word with a byte in IMM8 is a stray
operand's. -/
theorem verStartBeginsVerify : Obligations.VerStartBeginsVerify := by
  have hword : encode .verStart = 0x00003000 := by decide
  refine ⟨hword, fun s => ⟨exec_verStart s, fun b hb => ?_⟩⟩
  rw [← hword]
  exact execute_stray_operand rfl hb s

/-! ## VER.BYTE -/

/-- The word of VER.BYTE carries the byte in IMM8 (R81, R83). -/
theorem encode_verByte (b : Byte) : encode (.verByte b) = 0x00003100 ||| b.setWidth 32 := commandWord_eq_or 0x31 b

/-- What each element the byte can reach holds afterwards (R162). -/
theorem feedByte_eq (b : Byte) (c : Checker) :
    feedByte b c = { c with
      crc := if c.vcount.toNat < 14 then crcStep c.crc b else c.crc
      act :=
        if c.vcount.toNat = 14 then half b (highByte c.act)
        else if c.vcount.toNat = 15 then half (lowByte c.act) b
        else c.act
      vcount := countByte c.vcount } := by
  obtain ⟨h, e⟩ | ⟨h, e⟩ | ⟨h, e⟩ | ⟨h, e⟩ := feedByte_cases b c
  · rw [e, if_pos h, if_neg (by omega), if_neg (by omega)]
  · rw [e, if_neg (by omega), if_pos h]
  · rw [e, if_neg (by omega), if_neg (by omega), if_pos h]
  · rw [e, if_neg (by omega), if_neg (by omega), if_neg (by omega)]

section
variable {s : State} (hactive : s.chk.vactive = true)
include hactive

/-- A verify in progress takes the byte (R162). -/
theorem exec_verByte_of_active (b : Byte) : exec (.verByte b) s = .next { s with chk := feedByte b s.chk } :=
  exec_of_noError (by simp [phaseError, hactive]) rfl rfl

/-- A verify in progress ends, whatever its result (R163, R166). -/
theorem exec_verEnd_of_active : exec .verEnd s = .next { s with chk := closeVerify s.chk } :=
  exec_of_noError (by simp [phaseError, hactive]) rfl rfl

end

/-- Settles O23: VER.BYTE has PHASE as its only check, and its effect is the byte fed to the place its index names. -/
theorem verByteFeedsMessage : Obligations.VerByteFeedsMessage := by
  intro b s
  refine ⟨encode_verByte b, fun hinactive => ?_, fun hactive => ?_⟩
  · exact exec_of_phaseError (by simp [phaseError, hinactive])
  · rw [exec_verByte_of_active hactive, feedByte_eq, countByte_eq]
    rfl

/-! ## VER.END -/

/-- A message of fewer than 16 bytes is short, whatever its bytes (R163, R168). -/
theorem verifyFlags_of_short {c : Checker} (h : c.vcount.toNat < 16) : verifyFlags c = (true, false) := if_pos h

/-- From 16 bytes on the trailer decides (R163). -/
theorem verifyFlags_of_long {c : Checker} (h : 16 ≤ c.vcount.toNat) : verifyFlags c = (false, decide (c.crc = c.act)) :=
  if_neg (Nat.not_lt.2 h)

/-- Settles O24: VER.END has PHASE as its only check; its effect latches the CRC and the flags, which the count decides. -/
theorem verEndProducesResult : Obligations.VerEndProducesResult := by
  have hword : encode .verEnd = 0x00003200 := by decide
  refine ⟨hword, fun s => ⟨fun hinactive => ?_, fun hactive hshort => ?_, fun hactive hlong => ?_, fun b hb => ?_⟩⟩
  · exact exec_of_phaseError (by simp [phaseError, hinactive])
  · rw [exec_verEnd_of_active hactive, closeVerify, verifyFlags_of_short hshort]
  · rw [exec_verEnd_of_active hactive, closeVerify, verifyFlags_of_long hlong]
  · rw [← hword]
    exact execute_stray_operand rfl hb s

/-! ## The held result (R164) -/

/-- The low half of VRESULT is EXP (R46). -/
theorem vresult_low (s : State) : (readOffset 0x0C s).extractLsb' 0 16 = s.chk.exp := by
  rw [readOffset_vresult, vresultWord, BitVec.extractLsb'_append_eq_of_add_le (by omega)]
  exact BitVec.extractLsb'_eq_self

/-- The high half of VRESULT is ACT (R46). -/
theorem vresult_high (s : State) : (readOffset 0x0C s).extractLsb' 16 16 = s.chk.act := by
  rw [readOffset_vresult, vresultWord, BitVec.extractLsb'_append_eq_of_le (by omega)]
  exact BitVec.extractLsb'_eq_self

/-- Settles O25: each combination of the three flags takes one branch of `heldResult`, where the invariant rules VSHORT out under
VOK, and a mismatch carries the halves of VRESULT. -/
theorem heldResultMapsToDocument : Obligations.HeldResultMapsToDocument := by
  intro s
  refine ⟨fun hinv hdone hok => ?_, fun hdone hlong hbad => ?_, fun hdone hshort => ?_, fun hnone => ?_⟩
  · obtain ⟨-, hlong⟩ := hinv.vok_vdone hok
    simp [heldResult, hdone, hlong, hok]
  · rw [vresult_low, vresult_high]
    simp [heldResult, hdone, hlong, hbad]
  · simp [heldResult, hdone, hshort]
  · simp [heldResult, hnone]

/-! ## The result gates nothing (R166) -/

/-- The state with VOK changed to `b`. -/
def State.withVok (b : Bool) (s : State) : State := { s with chk := { s.chk with vok := b } }

/-- No check of a command reads VOK. -/
theorem firstError_withVok (i : Instr) (b : Bool) (s : State) : firstError i (s.withVok b) = firstError i s := by
  cases i <;> rfl

/-- A message byte neither reads nor writes VOK (R162). -/
theorem feedByte_vok (x : Byte) (b : Bool) (c : Checker) :
    feedByte x { c with vok := b } = { feedByte x c with vok := b } := by
  rw [feedByte_eq, feedByte_eq]

/-- No command reads VOK: what it does to a changed VOK differs in VOK alone. -/
theorem effect_withVok (i : Instr) (b : Bool) (s : State) :
    (effect i (s.withVok b)).withVok false = (effect i s).withVok false := by
  cases i with
  | verByte x => simp only [effect, State.withVok, feedByte_vok]
  | _ => rfl

/-- A command completes in a changed VOK as in the other, but for VOK. -/
theorem exec_withVok (i : Instr) (b : Bool) (s : State) :
    onNext (State.withVok false) (exec i (s.withVok b)) = onNext (State.withVok false) (exec i s) := by
  cases h : firstError i s with
  | some c => rw [exec_of_error h, exec_of_error ((firstError_withVok i b s).trans h)]; rfl
  | none =>
    rw [exec_of_ok h, exec_of_ok ((firstError_withVok i b s).trans h)]
    exact congrArg Host.Outcome.next (effect_withVok i b s)

/-- An executed word is a command or is only recorded, so it does not read VOK either. -/
theorem execute_withVok (w : Word) (b : Bool) (s : State) :
    onNext (State.withVok false) (execute w (s.withVok b)) = onNext (State.withVok false) (execute w s) := by
  cases hd : decode w with
  | cmd i => rw [execute_of_decode hd, execute_of_decode hd]; exact exec_withVok i b s
  | illegal why => rw [execute_of_illegal hd, execute_of_illegal hd]; rfl

/-- A KEYn write neither reads nor writes VOK (R57). -/
theorem keyWrite_withVok (n : Fin 4) (v : Word) (b : Bool) (s : State) :
    keyWrite n v (s.withVok b) = (keyWrite n v s).withVok b := by
  obtain ⟨hlocked, e⟩ | ⟨hopen, e⟩ := keyWrite_cases n v s
  · rw [e]; exact if_pos hlocked
  · rw [e]; exact if_neg (by simp [State.withVok, hopen])

/-- No register write reads VOK. -/
theorem writeReg_withVok (r : Reg) (v : Word) (b : Bool) (s : State) :
    onNext (State.withVok false) (writeReg r v (s.withVok b)) = onNext (State.withVok false) (writeReg r v s) := by
  cases r with
  | cmd => exact execute_withVok v b s
  | key n => exact congrArg (fun t => Host.Outcome.next (t.withVok false)) (keyWrite_withVok n v b s)
  | _ => rfl

/-- A successful response neither reads nor writes VOK (R114). -/
theorem cipherOkMove_withVok (b : Bool) (s : State) :
    cipherOkMove (s.withVok b) = onNext (State.withVok b) (cipherOkMove s) := by
  cases hbusy : s.dec.busy with
  | false => rw [cipherOkMove_of_idle hbusy, cipherOkMove_of_idle (s := s.withVok b) hbusy]; rfl
  | true =>
    cases hreq : s.dec.req with
    | some r => rw [cipherOkMove_of_request hbusy hreq, cipherOkMove_of_request (s := s.withVok b) hbusy hreq]; rfl
    | none => simp [cipherOkMove, State.withVok, hbusy, hreq, onNext]

/-- A failing response neither reads nor writes VOK (R115). -/
theorem cipherErrMove_withVok (b : Bool) (s : State) :
    cipherErrMove (s.withVok b) = onNext (State.withVok b) (cipherErrMove s) := by
  have hdec : (s.withVok b).dec = s.dec := rfl
  rw [cipherErrMove_eq, cipherErrMove_eq, hdec]
  by_cases h : s.dec.busy = true ∧ Config.cipherMayFail = true
  · rw [if_pos h, if_pos h]; rfl
  · rw [if_neg h, if_neg h]; rfl

/-- STATUS is the only register whose image holds VOK (R51). -/
theorem readReg_withVok {r : Reg} (h : r ≠ .status) (b : Bool) (s : State) : readReg r (s.withVok b) = readReg r s := by
  cases r with
  | status => exact absurd rfl h
  | _ => rfl

/-- Settles O28: VER.END of a verify in progress fails no check, and every operation of the block commutes with a change of VOK, up
to VOK itself where the operation writes it. -/
theorem verifyResultGatesNothing : Obligations.VerifyResultGatesNothing :=
  ⟨fun _ hactive => ⟨_, exec_verEnd_of_active hactive, rfl, rfl⟩,
    exec_withVok,
    fun off => writeReg_withVok (Reg.atOffset off),
    keyWrite_withVok,
    fun b s => ⟨cipherOkMove_withVok b s, cipherErrMove_withVok b s, rfl, fun _ hr => readReg_withVok hr b s⟩⟩

end Sys2Proof.Machine
end

section
/-! The message sequence VER.MSG (30_encoding.md R90) under every order of moves without a reset: what the checksum engine holds
after each of its commands, and the result of a short message (43_verify.md R168). -/

namespace Sys2Proof.Machine

/-! ## The checksum engine after part of a message -/

/-- The checksum engine in a verify that has received the bytes `p` (R161, R162). -/
def received (p : List Byte) : Checker where
  crc := crc16 (p.take 14)
  vactive := true
  vcount := BitVec.ofNat 5 (min p.length 16)
  act := trailer p
  exp := 0
  vdone := false
  vok := false
  vshort := false

/-- VER.START begins a message of which nothing is received, whatever the engine held. -/
theorem openVerify_eq_received (c : Checker) : openVerify c = received [] := rfl

/-- VCOUNT is the number of bytes received, up to 16 (R33, R162). -/
theorem received_vcount_toNat (p : List Byte) : (received p).vcount.toNat = min p.length 16 :=
  Nat.mod_eq_of_lt (by omega)

/-- VCOUNT counts the next byte (R162). -/
theorem countByte_received (p : List Byte) (b : Byte) :
    countByte (received p).vcount = (received (p ++ [b])).vcount := by
  rw [countByte, received_vcount_toNat, received, List.length_append, List.length_singleton]
  congr 1
  omega

/-- The CRC of one byte more (R142). -/
theorem crc16_concat (p : List Byte) (b : Byte) : crc16 (p ++ [b]) = crcStep (crc16 p) b :=
  List.foldl_concat crcStep Config.crcSeed b p

/-- The low byte of a pair of bytes. -/
theorem lowByte_half (lo hi : Byte) : lowByte (half lo hi) = lo := by
  rw [lowByte, half, BitVec.extractLsb'_append_eq_of_add_le (by omega)]
  exact BitVec.extractLsb'_eq_self

/-- The high byte of a pair of bytes. -/
theorem highByte_half (lo hi : Byte) : highByte (half lo hi) = hi := by
  rw [highByte, half, BitVec.extractLsb'_append_eq_of_le (by omega)]
  exact BitVec.extractLsb'_eq_self

/-- Byte `k` of a message with one byte more, a missing one being 0 (R168). -/
theorem getD_concat_zero (p : List Byte) (b : Byte) (k : Nat) :
    (p ++ [b]).getD k 0 = if p.length = k then b else p.getD k 0 := by
  obtain h | rfl | h := Nat.lt_trichotomy p.length k
  · rw [if_neg (by omega), List.getD_eq_default _ _ (by simp; omega), List.getD_eq_default _ _ (by omega)]
  · rw [if_pos rfl, List.getD_append_right _ _ _ _ (Nat.le_refl _), Nat.sub_self]
    rfl
  · rw [if_neg (by omega), List.getD_append _ _ _ _ h]

/-- Bytes 14 and 15 are the low and the high byte of the trailer, and no other byte reaches it (R160, R167). -/
theorem trailer_concat (p : List Byte) (b : Byte) :
    trailer (p ++ [b]) =
      if p.length = 14 then half b (highByte (trailer p))
      else if p.length = 15 then half (lowByte (trailer p)) b
      else trailer p := by
  simp only [trailer, getD_concat_zero, highByte_half, lowByte_half]
  by_cases h14 : p.length = 14
  · rw [if_pos h14, if_pos h14, if_neg (by omega)]
  · rw [if_neg h14, if_neg h14]
    split
    · rfl
    · rfl

/-- The CRC takes the bytes at index below 14 and no others (R160, R167). -/
theorem crc16_take_concat (p : List Byte) (b : Byte) :
    crc16 ((p ++ [b]).take 14) = if p.length < 14 then crcStep (crc16 (p.take 14)) b else crc16 (p.take 14) := by
  split
  · next h =>
    rw [List.take_of_length_le (by simp; omega), List.take_of_length_le (by omega), crc16_concat]
  · next h => rw [List.take_append_of_le_length (by omega)]

/-- VER.BYTE receives one byte more (R162). -/
theorem feedByte_received (b : Byte) (p : List Byte) : feedByte b (received p) = received (p ++ [b]) := by
  have hlt : min p.length 16 < 14 ↔ p.length < 14 := by omega
  have hlow : min p.length 16 = 14 ↔ p.length = 14 := by omega
  have hhigh : min p.length 16 = 15 ↔ p.length = 15 := by omega
  rw [feedByte_eq, countByte_received p b, received_vcount_toNat]
  simp only [hlt, hlow, hhigh, received, crc16_take_concat, trailer_concat]

/-! ## The sequence under the other agents' moves -/

/-- The commands of VER.MSG from the bytes `q` on (R90). -/
def verRest (q : List Byte) : List HostOp := (q.map fun b => cmd (.verByte b)) ++ [cmd .verEnd]

/-- How far the sequence of the message `m` has come: the host's remaining statements and what the checksum engine then holds. -/
inductive VerifyProgress (m : List Byte) : List HostOp → Checker → Prop
  | waiting (c : Checker) : VerifyProgress m (verMsg m) c
  | receiving (p q : List Byte) (h : p ++ q = m) : VerifyProgress m (verRest q) (received p)
  | ended : VerifyProgress m [] (closeVerify (received m))

/-- With the sequence used up the message is received whole and closed. -/
theorem VerifyProgress.chk_of_ended {m : List Byte} {c : Checker} (h : VerifyProgress m [] c) :
    c = closeVerify (received m) := by
  generalize hp : ([] : List HostOp) = ops at h
  cases h with
  | waiting => simp [verMsg] at hp
  | receiving p q => simp [verRest] at hp
  | ended => rfl

/-- A host step runs the sequence's next command, which fails no check (R161 to R163). -/
theorem VerifyProgress.host_step {m : List Byte} {s t : State} {op : HostOp} {rest : List HostOp}
    (h : VerifyProgress m s.program s.chk) (hm : HostMoves s) (hp : s.program = op :: rest) (ht : step s = .next t) :
    VerifyProgress m t.program t.chk ∧ t.err = s.err := by
  generalize hops : s.program = ops at h
  generalize hchk : s.chk = c at h
  cases h with
  | waiting =>
    rw [step_of_cmd hm hops, exec_verStart, openVerify_eq_received] at ht
    cases ht
    exact ⟨.receiving [] m rfl, rfl⟩
  | receiving p q hpq =>
    have hchk' (ops : List HostOp) : (s.afterFetch ops).chk = received p := hchk
    cases q with
    | nil =>
      have hpm : p = m := by rw [← hpq, List.append_nil]
      rw [step_of_cmd hm hops, exec_verEnd_of_active (by rw [hchk']; rfl), hchk', hpm] at ht
      cases ht
      exact ⟨.ended, rfl⟩
    | cons b q =>
      rw [step_of_cmd hm hops, exec_verByte_of_active (by rw [hchk']; rfl), hchk', feedByte_received] at ht
      cases ht
      exact ⟨.receiving (p ++ [b]) q (by rw [← hpq, List.append_assoc]; rfl), rfl⟩
  | ended => rw [hops] at hp; cases hp

/-- A step without a reset is the host's next access, or leaves the host's statements and the checksum engine, and the record too
unless the cipher fails. -/
theorem step_access_or_frame {s t : State} (hr : NoReset s) (h : step s = .next t) :
    (HostMoves s ∧ ∃ op rest, s.program = op :: rest) ∨
      (t.program = s.program ∧ t.chk = s.chk ∧ (NoCipherErr s → t.err = s.err)) := by
  obtain ⟨-, -, rfl⟩ | ⟨hm, op, rest, hp, -⟩ | ⟨-, hc⟩ | ⟨hfail, hc⟩ | ⟨hreset, -⟩ := step_cases h
  · exact .inr ⟨rfl, rfl, fun _ => rfl⟩
  · exact .inl ⟨hm, op, rest, hp⟩
  · obtain ⟨-, rfl⟩ | ⟨-, r, -, rfl⟩ := cipherOkMove_cases hc
    · exact .inr ⟨rfl, rfl, fun _ => rfl⟩
    · exact .inr ⟨rfl, rfl, fun _ => rfl⟩
  · rw [cipherErrMove_eq] at hc
    cases hc
    refine .inr ⟨?_, ?_, fun hn => absurd (List.mem_of_head? hfail) hn⟩
    · split <;> rfl
    · split <;> rfl
  · exact absurd (List.mem_of_head? hreset) hr

/-- What every run of the sequence of `m` from `s` keeps: no reset comes, the sequence is in progress, and without cipher failures
the record is the one it began with. -/
structure VerifyRun (m : List Byte) (s t : State) : Prop where
  noReset : NoReset t
  progress : VerifyProgress m t.program t.chk
  err_eq : NoCipherErr s → NoCipherErr t ∧ t.err = s.err

/-- Every step keeps it, whichever agent moves. -/
theorem VerifyRun.of_step {m : List Byte} {s t u : State} (h : VerifyRun m s t) (hu : step t = .next u) : VerifyRun m s u := by
  obtain ⟨hr, hprog, herr⟩ := h
  obtain ⟨hm, op, rest, hp⟩ | ⟨hprogram, hchk, hframe⟩ := step_access_or_frame hr hu
  · obtain ⟨hprog', herr'⟩ := hprog.host_step hm hp hu
    refine ⟨step_noReset hu hr, hprog', fun hs => ?_⟩
    obtain ⟨hc, he⟩ := herr hs
    exact ⟨step_noCipherErr hu hc, herr'.trans he⟩
  · refine ⟨step_noReset hu hr, by rwa [hprogram, hchk], fun hs => ?_⟩
    obtain ⟨hc, he⟩ := herr hs
    exact ⟨step_noCipherErr hu hc, (hframe hc).trans he⟩

/-- However the agents' moves interleave, the sequence used up leaves the message received and closed, and no error but the
cipher's. -/
theorem run_verMsg {m : List Byte} {s t : State} {n : Nat} (hp : s.program = verMsg m) (hr : NoReset s)
    (h : core.run n s = .next t) (ht : t.program = []) :
    t.chk = closeVerify (received m) ∧ (NoCipherErr s → t.err = s.err) := by
  have hstart : VerifyRun m s s := ⟨hr, by rw [hp]; exact .waiting s.chk, fun hc => ⟨hc, rfl⟩⟩
  obtain ⟨-, hprog, herr⟩ := run_keeps (fun _ _ => VerifyRun.of_step) n s t hstart h
  rw [ht] at hprog
  exact ⟨hprog.chk_of_ended, fun hc => (herr hc).2⟩

/-- Settles O27: the run leaves the message received and closed, and below 16 bytes VCOUNT is the length, so the message is short. -/
theorem shortMessageIsReportedAsData : Obligations.ShortMessageIsReportedAsData := by
  intro m s hshort hp hr n t h ht
  obtain ⟨hchk, herr⟩ := run_verMsg hp hr h ht
  have hcount : (received m).vcount.toNat = m.length := by rw [received_vcount_toNat]; omega
  have hflags : verifyFlags (received m) = (true, false) := verifyFlags_of_short (by rw [hcount]; exact hshort)
  rw [hchk]
  refine ⟨rfl, hcount, rfl, ?_, ?_, rfl, rfl, herr⟩
  · rw [closeVerify_vshort, hflags]
  · rw [closeVerify_vok, hflags]

end Sys2Proof.Machine
end

section
/-! One error a command, the first in the order of 60_exceptions.md R183. -/

namespace Sys2Proof.Machine

/-- Settles O8: an Illegal word is only recorded; a legal one executes its command, whose checks come in the order PHASE, BUSY,
OVERRUN, and whose effect, when none fails, leaves the record unless it is ERR.CLR. In a state of the invariant a held block
excludes an outstanding request. -/
theorem errorPriority : Obligations.ErrorPriority := by
  intro w i s
  refine ⟨fun ⟨_, hillegal⟩ => execute_of_illegal hillegal s, fun hd => ?_, fun hinv ⟨hbusy, hheld⟩ => ?_⟩
  · rw [execute_of_decode hd]
    exact ⟨exec_of_phaseError, exec_of_busyError, exec_of_overrunError, fun hphase hbusy hoverrun =>
      ⟨effect i s, exec_of_noError hphase hbusy hoverrun, fun hi => effect_err hi s⟩⟩
  · exact absurd hbusy (by simp [hinv.busy_of_ovalid hheld])

end Sys2Proof.Machine
end

section
/-! The reset input (70_reset_and_hazards.md R210, R211): every element of the block at its reset value, and no request left for
a later response to answer. -/

namespace Sys2Proof.Machine

/-- The step at the reset input (R210), from every state. -/
theorem step_of_reset {s : State} (h : s.sched.head? = some .reset) :
    step s = .next (resetBlock { s with sched := s.sched.tail }) := by
  obtain ⟨rest, hs⟩ := List.head?_eq_some_iff.1 h
  simp only [step, hs, List.tail_cons]

/-- No request is outstanding after reset, one that was is abandoned (R211). -/
theorem resetBlock_idle (s : State) : (resetBlock s).dec.busy = false := rfl

/-- Settles O41: the step answers the block at its reset values, where BUSY = 0, so that both responses are idle. -/
theorem resetSetsEveryElement : Obligations.ResetSetsEveryElement := by
  intro s h
  exact ⟨_, step_of_reset h, rfl, rfl, rfl, cipherOkMove_of_idle (resetBlock_idle _), cipherErrMove_of_idle (resetBlock_idle _)⟩

end Sys2Proof.Machine
end

section
/-! The encoding (30_encoding.md R81 to R84, R90, R92): a word decodes to a command exactly when it is that command's word, and what
mnemonics assemble to. -/

namespace Sys2Proof

/-- A word that decodes to a command is made of that command's fields, RSV being 0 (R81, R84). -/
theorem eq_encode_of_decode {w : Word} {i : Instr} (h : decode w = .cmd i) : w = encode i := by
  obtain ⟨hrsv, hop, himm⟩ := decode_eq_cmd_iff.1 h
  rw [encode, hop, himm, commandWord_fields w hrsv]

/-- Settles O2: the decoder reads a command back from its word, and a word that decodes to a command is made of its fields. -/
theorem decodeAndEncodeAgree : Obligations.DecodeAndEncodeAgree :=
  fun _ i => ⟨eq_encode_of_decode, fun h => h ▸ Machine.decode_encode i⟩

/-- Settles O1: each word is fixed, so the decoder is run on it. -/
theorem writtenWordsDecode : Obligations.WrittenWordsDecode := by
  unfold Obligations.WrittenWordsDecode
  decide

/-- A mnemonic whose command takes no operand assembles to none with one (log entry 22). -/
theorem assemble_superfluous {i : Instr} (h : i.operand = none) (b : Byte) : assemble i.mnemonic (some b) = none := by
  cases i with
  | decByte | crcByte | verByte => cases h
  | _ => rfl

/-- A mnemonic whose command takes an operand assembles to none without it (log entry 22). -/
theorem assemble_missing {i : Instr} (h : i.operand ≠ none) : assemble i.mnemonic none = none := by
  cases i with
  | decByte | crcByte | verByte => rfl
  | _ => exact absurd rfl h

/-- A mnemonic with its operand assembles to its command (R90). -/
theorem assemble_mnemonic (i : Instr) : assemble i.mnemonic i.operand = some i := by
  cases i <;> rfl

/-- Settles O5: each of the three clauses is a fact of the assembler's table, read off command by command. -/
theorem mnemonicsAssemble : Obligations.MnemonicsAssemble :=
  fun i => ⟨assemble_mnemonic i, fun b h => assemble_superfluous h b, assemble_missing⟩

end Sys2Proof
end

section
/-! What one step does to the two engines, said once, and the invariant of 10_state.md R41: it speaks of the decrypt engine, the
checksum engine and the error record apart, and every step keeps each part. -/

namespace Sys2Proof.Machine

/-! ## What one step does to the engines -/

/-- The step writes neither engine. -/
def SameEngines (s t : State) : Prop := t.dec = s.dec ∧ t.chk = s.chk

/-- The command `i` fails no check in `s` and has had its effect on the engines in `t` (R100). -/
def RunsCommand (i : Instr) (s t : State) : Prop :=
  firstError i s = none ∧ t.dec = (effect i s).dec ∧ t.chk = (effect i s).chk

/-- KEYn has taken `v` in `t`, no frame being open in `s`, and nothing else of the engines is written (R57). -/
def WritesKey (n : Fin 4) (v : Word) (s t : State) : Prop :=
  s.dec.dactive = false ∧ t.dec = { s.dec with key := setBlockWord s.dec.key n v } ∧ t.chk = s.chk

/-- The cipher agent has delivered the block of the outstanding request (R114). -/
def Delivers (s t : State) : Prop :=
  s.dec.busy = true ∧ t.chk = s.chk ∧ ∃ r, s.dec.req = some r ∧ t.dec = deliverBlock r s.dec

/-- The cipher agent has failed the outstanding request (R115). -/
def Abandons (s t : State) : Prop :=
  s.dec.busy = true ∧ Config.cipherMayFail = true ∧ t.chk = s.chk ∧ t.dec = abandonFrame s.dec

/-- A write in the window that completes is 32 bits wide (R54). -/
theorem size_of_answered_write {off : Offset} {size : AccessSize} {v : Word} {s t : State}
    (h : hostAccess (.write (.window off) size v) s = .next t) : size = .word := by
  by_contra hsize
  rw [hostAccess_write_refused fun ha => hsize ((answers_iff off size).1 ha).1] at h
  cases h

/-- An executed word leaves the engines or runs its command (R100). -/
theorem execute_engine_cases {w : Word} {s t : State} (h : execute w s = .next t) :
    SameEngines s t ∨ ∃ i, decode w = .cmd i ∧ RunsCommand i s t := by
  obtain ⟨-, rfl⟩ | ⟨i, hd, hex⟩ := execute_cases h
  · exact .inl ⟨rfl, rfl⟩
  · obtain ⟨c, -, rfl⟩ | ⟨hok, rfl⟩ := exec_cases hex
    · exact .inl ⟨rfl, rfl⟩
    · exact .inr ⟨i, hd, hok, rfl, rfl⟩

/-- What a host access does to the engines (R59). -/
theorem hostAccess_engine_cases {op : HostOp} {s t : State} (h : hostAccess op s = .next t) :
    SameEngines s t ∨
    (∃ off v n, op = .write (.window off) .word v ∧ Reg.atOffset off = .key n ∧ WritesKey n v s t) ∨
    ∃ i, RunsCommand i s t := by
  obtain rfl | ⟨_, rfl⟩ | ⟨_, _, _, -, rfl⟩ | ⟨off, size, v, n, rfl, hr, rfl⟩ | ⟨_, _, _, -, -, he⟩ := hostAccess_cases h
  · exact .inl ⟨rfl, rfl⟩
  · exact .inl ⟨rfl, rfl⟩
  · exact .inl ⟨rfl, rfl⟩
  · obtain rfl := size_of_answered_write h
    obtain ⟨-, e⟩ | ⟨hopen, e⟩ := keyWrite_cases n v s
    · exact .inl ⟨by rw [e]; rfl, keyWrite_chk n v s⟩
    · exact .inr (.inl ⟨off, v, n, rfl, hr, hopen, by rw [e], keyWrite_chk n v s⟩)
  · obtain hsame | ⟨i, -, hrun⟩ := execute_engine_cases he
    · exact .inl hsame
    · exact .inr (.inr ⟨i, hrun⟩)

/-- Fetching a statement changes nothing that a command reads or writes of the engines. -/
theorem RunsCommand.of_afterFetch {i : Instr} {s t : State} {rest : List HostOp} (h : RunsCommand i (s.afterFetch rest) t) :
    RunsCommand i s t := by
  cases i <;> exact h

/-- What one step does to the engines (R20, R59). -/
theorem step_engine_cases {s t : State} (h : step s = .next t) :
    SameEngines s t ∨
    (HostMoves s ∧ ∃ off v rest n, s.program = .write (.window off) .word v :: rest ∧ Reg.atOffset off = .key n ∧
      WritesKey n v s t) ∨
    (∃ i, RunsCommand i s t) ∨
    (s.sched.head? = some .cipherOk ∧ Delivers s t) ∨
    (s.sched.head? = some .cipherErr ∧ Abandons s t) ∨
    (s.sched.head? = some .reset ∧ t.dec = Decryptor.reset ∧ t.chk = Checker.reset) := by
  obtain ⟨-, -, rfl⟩ | ⟨hm, op, rest, hp, ha⟩ | ⟨hok, hc⟩ | ⟨hfail, hc⟩ | ⟨hreset, rfl⟩ := step_cases h
  · exact .inl ⟨rfl, rfl⟩
  · obtain hsame | ⟨off, v, n, rfl, hr, hkey⟩ | ⟨i, hrun⟩ := hostAccess_engine_cases ha
    · exact .inl hsame
    · exact .inr (.inl ⟨hm, off, v, rest, n, hp, hr, hkey⟩)
    · exact .inr (.inr (.inl ⟨i, hrun.of_afterFetch⟩))
  · obtain ⟨-, rfl⟩ | ⟨hbusy, r, hreq, rfl⟩ := cipherOkMove_cases hc
    · exact .inl ⟨rfl, rfl⟩
    · exact .inr (.inr (.inr (.inl ⟨hok, hbusy, rfl, r, hreq, rfl⟩)))
  · rw [cipherErrMove_eq] at hc
    cases hc
    split
    · next hb => exact .inr (.inr (.inr (.inr (.inl ⟨hfail, hb.1, hb.2, rfl, rfl⟩))))
    · exact .inl ⟨rfl, rfl⟩
  · exact .inr (.inr (.inr (.inr (.inr ⟨hreset, rfl, rfl⟩))))

/-! ## The three parts of the invariant -/

/-- What R41 and R25 say of the decrypt engine. -/
structure DecryptorInv (d : Decryptor) : Prop where
  busy_dactive : d.busy = true → d.dactive = true
  busy_ovalid : d.busy = true → d.ovalid = false
  req_busy : d.req.isSome = d.busy

/-- What R41 says of the checksum engine. -/
structure CheckerInv (c : Checker) : Prop where
  vactive_vdone : c.vactive = true → c.vdone = false
  vok_vdone : c.vok = true → c.vdone = true ∧ c.vshort = false
  vshort_vdone : c.vshort = true → c.vdone = true
  vcount_le : c.vcount.toNat ≤ 16

/-- What R41 and R181 say of the error record. -/
structure ErrRecordInv (e : ErrRecord) : Prop where
  clear_record : e.code = 0 → e.opc = 0 ∧ e.multi = false
  code_le : e.code.toNat ≤ 6

/-- The invariant is that of the three parts (IFILL is 4 bits wide, so its bound is no condition). -/
theorem blockInv_iff (s : State) : BlockInv s ↔ DecryptorInv s.dec ∧ CheckerInv s.chk ∧ ErrRecordInv s.err := by
  constructor
  · intro h
    exact ⟨⟨h.busy_dactive, h.busy_ovalid, h.req_busy⟩, ⟨h.vactive_vdone, h.vok_vdone, h.vshort_vdone, h.vcount_le⟩,
      ⟨h.clear_record, h.code_le⟩⟩
  · rintro ⟨hdec, hchk, herr⟩
    exact ⟨hdec.busy_dactive, hdec.busy_ovalid, hchk.vactive_vdone, hchk.vok_vdone, hchk.vshort_vdone, hchk.vcount_le,
      Nat.le_of_lt_succ s.dec.ifill.isLt, herr.clear_record, hdec.req_busy, herr.code_le⟩

theorem DecryptorInv.reset : DecryptorInv Decryptor.reset := by constructor <;> decide

theorem CheckerInv.reset : CheckerInv Checker.reset := by constructor <;> decide

theorem ErrRecordInv.clear : ErrRecordInv ErrRecord.clear := by constructor <;> decide

/-- Settles O43: each of the three parts holds of its reset value. -/
theorem invariantAtReset : Obligations.InvariantAtReset :=
  (blockInv_iff State.reset).2 ⟨.reset, .reset, .clear⟩

/-- An engine with no request outstanding, and none latched, has the invariant. -/
theorem DecryptorInv.of_idle {d : Decryptor} (hbusy : d.busy = false) (hreq : d.req = none) : DecryptorInv d :=
  ⟨fun h => absurd h (by simp [hbusy]), fun h => absurd h (by simp [hbusy]), by simp [hbusy, hreq]⟩

/-- With no request outstanding none is latched (R25). -/
theorem DecryptorInv.req_of_idle {d : Decryptor} (h : DecryptorInv d) (hbusy : d.busy = false) : d.req = none := by
  have := h.req_busy
  rwa [hbusy, Option.isSome_eq_false_iff, Option.isNone_iff_eq_none] at this

/-! ## Commands keep the invariant -/

/-- A command fails no check when none of the three applies (R183). -/
theorem firstError_eq_none_iff {i : Instr} {s : State} :
    firstError i s = none ↔ phaseError i s = false ∧ busyError i s = false ∧ overrunError i s = false := by
  unfold firstError
  cases phaseError i s <;> cases busyError i s <;> cases overrunError i s <;> decide

/-- A byte accepted with a frame open, no request outstanding and no block held (R112). -/
theorem DecryptorInv.acceptByte {d : Decryptor} (h : DecryptorInv d) (hopen : d.dactive = true) (hidle : d.busy = false)
    (hfree : d.ovalid = false) (b : Byte) : DecryptorInv (acceptByte b d) := by
  obtain ⟨-, e⟩ | ⟨-, e⟩ := acceptByte_cases b d
  · rw [e]; exact ⟨fun _ => hopen, fun _ => hfree, rfl⟩
  · rw [e]; exact .of_idle hidle (h.req_of_idle hidle)

/-- A command that fails no check keeps the decrypt engine's part. -/
theorem DecryptorInv.effect {i : Instr} {s : State} (h : DecryptorInv s.dec) (hok : firstError i s = none) :
    DecryptorInv (effect i s).dec := by
  obtain ⟨hphase, hbusy, hoverrun⟩ := firstError_eq_none_iff.1 hok
  cases i with
  | decStart => exact .of_idle hbusy (h.req_of_idle hbusy)
  | decByte b => exact h.acceptByte (by simpa [phaseError] using hphase) hbusy hoverrun b
  | decPop => exact ⟨h.busy_dactive, fun _ => rfl, h.req_busy⟩
  | decEnd => exact .of_idle hbusy (h.req_of_idle hbusy)
  | nop | errClr | crcInit | crcByte | verStart | verByte | verEnd => exact h

/-- The result flags VER.END writes exclude each other (R163). -/
theorem verifyFlags_exclusive (c : Checker) (h : (verifyFlags c).2 = true) : (verifyFlags c).1 = false := by
  unfold verifyFlags at *
  split at h
  · cases h
  · next hlong => rw [if_neg hlong]

/-- A message byte keeps the checksum engine's part (R162). -/
theorem CheckerInv.feedByte {c : Checker} (h : CheckerInv c) (b : Byte) : CheckerInv (feedByte b c) := by
  rw [feedByte_eq]
  exact ⟨h.vactive_vdone, h.vok_vdone, h.vshort_vdone, countByte_le c.vcount⟩

/-- The end of a message keeps the checksum engine's part (R163). -/
theorem CheckerInv.closeVerify {c : Checker} (h : CheckerInv c) : CheckerInv (closeVerify c) :=
  ⟨nofun, fun hok => ⟨rfl, verifyFlags_exclusive c hok⟩, fun _ => rfl, h.vcount_le⟩

/-- Every command's effect keeps the checksum engine's part. -/
theorem CheckerInv.effect {i : Instr} {s : State} (h : CheckerInv s.chk) : CheckerInv (effect i s).chk := by
  cases i with
  | verStart => exact ⟨fun _ => rfl, nofun, nofun, Nat.zero_le 16⟩
  | verByte b => exact h.feedByte b
  | verEnd => exact h.closeVerify
  | crcInit | crcByte => exact ⟨h.vactive_vdone, h.vok_vdone, h.vshort_vdone, h.vcount_le⟩
  | nop | errClr | decStart | decByte | decPop | decEnd => exact h

/-- Recording an error keeps the record's part (R182). -/
theorem ErrRecordInv.record {e : ErrRecord} (h : ErrRecordInv e) (c : ErrCode) (o : Byte) : ErrRecordInv (e.record c o) :=
  ⟨fun h0 => absurd h0 (e.record_code_ne c o), ErrRecord.record_code_le h.code_le c o⟩

/-! ## Every step keeps it -/

theorem step_keeps_decryptorInv {s t : State} (h : DecryptorInv s.dec) (hst : step s = .next t) : DecryptorInv t.dec := by
  obtain ⟨hdec, -⟩ | ⟨-, _, _, _, _, -, -, -, hdec, -⟩ | ⟨i, hok, hdec, -⟩ | ⟨-, -, -, r, -, hdec⟩ | ⟨-, -, -, -, hdec⟩ |
    ⟨-, hdec, -⟩ := step_engine_cases hst
  · rwa [hdec]
  · rw [hdec]; exact ⟨h.busy_dactive, h.busy_ovalid, h.req_busy⟩
  · rw [hdec]; exact h.effect hok
  · rw [hdec]; exact .of_idle rfl rfl
  · rw [hdec]; exact .of_idle rfl rfl
  · rw [hdec]; exact .reset

theorem step_keeps_checkerInv {s t : State} (h : CheckerInv s.chk) (hst : step s = .next t) : CheckerInv t.chk := by
  obtain ⟨-, hchk⟩ | ⟨-, _, _, _, _, -, -, -, -, hchk⟩ | ⟨i, -, -, hchk⟩ | ⟨-, -, hchk, -⟩ | ⟨-, -, -, hchk, -⟩ |
    ⟨-, -, hchk⟩ := step_engine_cases hst
  · rwa [hchk]
  · rwa [hchk]
  · rw [hchk]; exact h.effect
  · rwa [hchk]
  · rwa [hchk]
  · rw [hchk]; exact .reset

/-- The host's writing ERR.CLR leaves the record clear (R102). -/
theorem HostClearsError.err_eq_clear {s t : State} (h : HostClearsError s) (hst : step s = .next t) :
    t.err = ErrRecord.clear := by
  obtain ⟨hm, off, v, rest, hp, hr, hd⟩ := h
  by_cases ha : answers off .word = true
  · rw [step_of_write hm hp ha, writeOffset, hr, writeReg, execute_of_decode hd, exec_errClr] at hst
    cases hst
    rfl
  · rw [step_of_access hm hp, hostAccess_write_refused ha] at hst
    cases hst

theorem step_keeps_errRecordInv {s t : State} (h : ErrRecordInv s.err) (hst : step s = .next t) : ErrRecordInv t.err := by
  obtain herr | ⟨c, o, herr⟩ | hreset | hclears := step_err_cases hst
  · rwa [herr]
  · rw [herr]; exact h.record c o
  · rw [step_of_reset hreset] at hst
    cases hst
    exact .clear
  · rw [hclears.err_eq_clear hst]; exact .clear

/-- Settles O44: a step keeps the invariant's part of each engine and of the record. -/
theorem stepKeepsInvariant : Obligations.StepKeepsInvariant := by
  intro s t hinv hst
  obtain ⟨hdec, hchk, herr⟩ := (blockInv_iff s).1 hinv
  exact (blockInv_iff t).2
    ⟨step_keeps_decryptorInv hdec hst, step_keeps_checkerInv hchk hst, step_keeps_errRecordInv herr hst⟩

end Sys2Proof.Machine
end

section
/-! The error record and the commands as wholes: recording (60_exceptions.md R182), R100's all or nothing, and the independence of the
two engines (92_eei_decisions.md D32). -/

namespace Sys2Proof.Machine

/-! ## The error record -/

/-- Settles O9: the two cases of recording, and the codes of R181. -/
theorem recordErrorKeepsTheFirst : Obligations.RecordErrorKeepsTheFirst := by
  intro code opc s
  refine ⟨fun hclear => ?_, fun hset => ?_, ?_⟩
  · rw [recordError, ErrRecord.record_of_clear hclear]
  · rw [recordError, ErrRecord.record_of_set hset]
  · cases code <;> rfl

/-- Settles O10: of the things a step can do to the record, leaving it and recording a later error keep the first one. -/
theorem recordClearedOnlyByErrClrOrReset : Obligations.RecordClearedOnlyByErrClrOrReset := by
  intro s t hst hset hreset hclr
  obtain herr | ⟨c, o, herr⟩ | h | ⟨hm, off, v, rest, hcmd⟩ := step_err_cases hst
  · rw [herr]; exact ⟨rfl, rfl, id⟩
  · rw [herr, ErrRecord.record_of_set hset]; exact ⟨rfl, rfl, fun _ => rfl⟩
  · exact absurd h hreset
  · exact absurd ⟨off, v, rest, hm, hcmd⟩ hclr

/-! ## Commands -/

/-- Settles O7: an Illegal word is only recorded, and a legal one is its command, which reports its first error or has its effect. -/
theorem commandsAreAllOrNothing : Obligations.CommandsAreAllOrNothing := by
  intro w s
  refine ⟨fun why hd => execute_of_illegal hd s, fun i hd => ⟨execute_of_decode hd s, ?_⟩⟩
  cases hfirst : firstError i s with
  | some c => exact .inl ⟨c, rfl, exec_of_error hfirst⟩
  | none => exact .inr ⟨rfl, exec_of_ok hfirst, fun hi => effect_err hi s⟩

/-- A change of state that neither a command's checks nor its effect sees commutes with running it. -/
theorem exec_comm {i : Instr} {f : State → State} {s : State} (hfirst : firstError i (f s) = firstError i s)
    (heffect : effect i (f s) = f (effect i s)) (hrecord : ∀ c, recordError c i.op (f s) = f (recordError c i.op s)) :
    exec i (f s) = onNext f (exec i s) := by
  cases h : firstError i s with
  | some c => rw [exec_of_error h, exec_of_error (hfirst.trans h), hrecord]; rfl
  | none => rw [exec_of_ok h, exec_of_ok (hfirst.trans h), heffect]; rfl

/-- The state with another checksum engine. -/
def State.withChk (c : Checker) (s : State) : State := { s with chk := c }

/-- The state with another decrypt engine. -/
def State.withDec (d : Decryptor) (s : State) : State := { s with dec := d }

/-- A decrypt command neither checks nor writes the checksum engine (D32). -/
theorem decryptCommand_ignores_chk {i : Instr} (h : decryptCommand i = true) (c : Checker) (s : State) :
    firstError i (s.withChk c) = firstError i s ∧ effect i (s.withChk c) = (effect i s).withChk c := by
  cases i with
  | decStart | decByte | decPop | decEnd => exact ⟨rfl, rfl⟩
  | _ => cases h

/-- A checksum command neither checks nor writes the decrypt engine (D32). -/
theorem checksumCommand_ignores_dec {i : Instr} (h : checksumCommand i = true) (d : Decryptor) (s : State) :
    firstError i (s.withDec d) = firstError i s ∧ effect i (s.withDec d) = (effect i s).withDec d := by
  cases i with
  | crcInit | crcByte | verStart | verByte | verEnd => exact ⟨rfl, rfl⟩
  | _ => cases h

/-- Settles O49: a command commutes with exchanging the engine that its checks and its effect do not see. -/
theorem enginesAreIndependent : Obligations.EnginesAreIndependent := by
  intro i s c d
  constructor
  · intro h
    obtain ⟨hfirst, heffect⟩ := decryptCommand_ignores_chk h c s
    exact exec_comm hfirst heffect fun _ => rfl
  · intro h
    obtain ⟨hfirst, heffect⟩ := checksumCommand_ignores_dec h d s
    exact exec_comm hfirst heffect fun _ => rfl

end Sys2Proof.Machine
end

section
/-! What can change KEY, OBUF and BUSY (20_memory.md section 5, 70_reset_and_hazards.md R222, 60_exceptions.md R194): what no command
does to them, and then what a step can. -/

namespace Sys2Proof.Machine

/-- No command writes KEY (R57). -/
theorem effect_key (i : Instr) (s : State) : (effect i s).dec.key = s.dec.key := by
  cases i with
  | decByte b => obtain ⟨-, e⟩ | ⟨-, e⟩ := acceptByte_cases b s.dec <;> rw [effect, e]
  | _ => rfl

/-- No command writes OBUF (R26). -/
theorem effect_obuf (i : Instr) (s : State) : (effect i s).dec.obuf = s.dec.obuf := by
  cases i with
  | decByte b => obtain ⟨-, e⟩ | ⟨-, e⟩ := acceptByte_cases b s.dec <;> rw [effect, e]
  | _ => rfl

/-- No command clears BUSY (R24). -/
theorem effect_busy (i : Instr) (s : State) (h : s.dec.busy = true) : (effect i s).dec.busy = true := by
  cases i with
  | decByte b =>
    obtain ⟨-, e⟩ | ⟨-, e⟩ := acceptByte_cases b s.dec
    · rw [effect, e]
    · rw [effect, e]; exact h
  | _ => exact h

/-- Settles O46: of the things a step can do to the decrypt engine, only an open KEYn write and a reset reach KEY. -/
theorem keyFixedWhileFrameOpen : Obligations.KeyFixedWhileFrameOpen := by
  intro s t hst hkey
  obtain ⟨hdec, -⟩ | ⟨hm, off, v, rest, n, hp, hr, hopen, -⟩ | ⟨i, -, hdec, -⟩ | ⟨-, -, -, r, -, hdec⟩ | ⟨-, -, -, -, hdec⟩ |
    ⟨hreset, -⟩ := step_engine_cases hst
  · exact absurd (by rw [hdec]) hkey
  · exact .inr ⟨hopen, hm, off, v, rest, n, hp, hr⟩
  · exact absurd (by rw [hdec, effect_key]) hkey
  · exact absurd (by rw [hdec, deliverBlock_key]) hkey
  · exact absurd (by rw [hdec, abandonFrame_key]) hkey
  · exact .inl hreset

/-- Settles O47: of the things a step can do to the decrypt engine, only a delivered block and a reset reach OBUF. -/
theorem outputStableWhileValid : Obligations.OutputStableWhileValid := by
  intro s t hst hobuf
  obtain ⟨hdec, -⟩ | ⟨-, _, _, _, _, -, -, -, hdec, -⟩ | ⟨i, -, hdec, -⟩ | ⟨hok, hbusy, -⟩ | ⟨-, -, -, -, hdec⟩ |
    ⟨hreset, -⟩ := step_engine_cases hst
  · exact absurd (by rw [hdec]) hobuf
  · exact absurd (by rw [hdec]) hobuf
  · exact absurd (by rw [hdec, effect_obuf]) hobuf
  · exact .inr ⟨hok, hbusy, fun hinv => hinv.busy_ovalid hbusy⟩
  · exact absurd (by rw [hdec, abandonFrame_obuf]) hobuf
  · exact .inl hreset

/-- Settles O48: of the things a step can do to the decrypt engine, neither a command nor a KEYn write clears BUSY. -/
theorem busyClearedOnlyByResponseOrReset : Obligations.BusyClearedOnlyByResponseOrReset := by
  intro s t hst hbusy hidle
  obtain ⟨hdec, -⟩ | ⟨-, _, _, _, _, -, -, -, hdec, -⟩ | ⟨i, -, hdec, -⟩ | ⟨hok, -⟩ | ⟨hfail, -, hmay, -⟩ | ⟨hreset, -⟩ :=
    step_engine_cases hst
  · exact absurd hidle (by simp [hdec, hbusy])
  · exact absurd hidle (by simp [hdec, hbusy])
  · exact absurd hidle (by simp [hdec, effect_busy i s hbusy])
  · exact .inl hok
  · exact .inr (.inl ⟨hfail, hmay⟩)
  · exact .inr (.inr hreset)

end Sys2Proof.Machine
end

section
/-! The machine goes on (20_memory.md R54, 41_decrypt.md R114, R115): which moves answer a next state, what the cipher port carries
and what a failing response does. -/

namespace Sys2Proof.Machine

/-! ## The agent that moves -/

/-- One of the four agents moves (R20, R210). -/
theorem mover_cases (s : State) :
    HostMoves s ∨ s.sched.head? = some .cipherOk ∨ s.sched.head? = some .cipherErr ∨ s.sched.head? = some .reset := by
  unfold HostMoves
  cases s.sched.head? with
  | none => exact .inl (.inl rfl)
  | some m => cases m <;> decide

/-- A well-formed window access is one the block answers (R54). -/
theorem answers_eq_wellFormed (off : Offset) (size : AccessSize) :
    answers off size = (size.isWord && (Target.window off).aligned) := by
  cases size with
  | byte | half => rfl
  | word => exact answers_word off

/-- A host access completes, or is refused because R54 gives it no step. -/
theorem hostAccess_next_or_refused (op : HostOp) (s : State) :
    (∃ t, hostAccess op s = .next t) ∨ (hostAccess op s = .refused .accessNotAnswered ∧ op.wellFormed = false) := by
  rcases op with ⟨off | a, size⟩ | ⟨off | a, size, v⟩ | ⟨off, mask, v⟩
  · by_cases ha : answers off size = true
    · exact .inl ⟨_, hostAccess_read ha s⟩
    · exact .inr ⟨hostAccess_read_refused ha s, by simpa [HostOp.wellFormed, answers_eq_wellFormed] using ha⟩
  · exact .inl ⟨s, rfl⟩
  · by_cases ha : answers off size = true
    · obtain ⟨t, ht⟩ := writeReg_next (Reg.atOffset off) v s
      exact .inl ⟨t, (hostAccess_write ha v s).trans ht⟩
    · exact .inr ⟨hostAccess_write_refused ha v s, by simpa [HostOp.wellFormed, answers_eq_wellFormed] using ha⟩
  · exact .inl ⟨s, rfl⟩
  · by_cases ha : answers off .word = true
    · exact .inl (hostAccess_poll_next ha mask v s)
    · exact .inr ⟨hostAccess_poll_refused ha mask v s, by simpa [HostOp.wellFormed, answers_eq_wellFormed, AccessSize.isWord] using ha⟩

/-- In a state of the invariant a request is latched while BUSY = 1 (R25). -/
theorem BlockInv.exists_request {s : State} (hinv : BlockInv s) (hbusy : s.dec.busy = true) : ∃ r, s.dec.req = some r :=
  Option.isSome_iff_exists.1 (hinv.req_busy.trans hbusy)

/-- In a state of the invariant a success answers a next state (R114, R116). -/
theorem BlockInv.cipherOkMove_next {s : State} (hinv : BlockInv s) : ∃ t, cipherOkMove s = .next t := by
  cases hbusy : s.dec.busy with
  | false => exact ⟨s, cipherOkMove_of_idle hbusy⟩
  | true =>
    obtain ⟨r, hreq⟩ := hinv.exists_request hbusy
    exact ⟨_, cipherOkMove_of_request hbusy hreq⟩

/-- The invariant says nothing of the moves to come. -/
theorem BlockInv.withSched {s : State} (h : BlockInv s) (ms : List Move) : BlockInv { s with sched := ms } :=
  (blockInv_iff _).2 ((blockInv_iff s).1 h)

/-- Settles O45: the host's access completes or is refused, and each of the other agents answers a next state. -/
theorem invariantStatesGoOn : Obligations.InvariantStatesGoOn := by
  intro s hinv
  obtain hm | hok | hfail | hreset := mover_cases s
  · cases hp : s.program with
    | nil => exact .inl ⟨_, step_of_idle hm hp⟩
    | cons op rest =>
      rw [step_of_access hm hp]
      obtain hnext | ⟨hrefused, hill⟩ := hostAccess_next_or_refused op (s.afterFetch rest)
      · exact .inl hnext
      · exact .inr ⟨hrefused, hm, op, rest, rfl, hill⟩
  · rw [step_of_cipherOk hok]
    exact .inl (hinv.withSched _).cipherOkMove_next
  · rw [step_of_cipherErr hfail, cipherErrMove_eq]
    exact .inl ⟨_, rfl⟩
  · exact .inl ⟨_, step_of_reset hreset⟩

/-! ## The cipher port -/

/-- Settles O30: a failure with a request outstanding is `cipherFail` where the port can fail, and in the same state the latched
request can be answered. -/
theorem cipherErrAbandonsFrame : Obligations.CipherErrAbandonsFrame := by
  intro s ms hbusy
  constructor
  · rw [step_of_cipherErr rfl, cipherErrMove_eq]
    simp only [hbusy, true_and]
    rfl
  · intro hinv
    obtain ⟨r, hreq⟩ := hinv.exists_request hbusy
    exact ⟨_, (step_of_cipherOk rfl).trans (cipherOkMove_of_request hbusy hreq), rfl, rfl⟩

/-- Settles O32: each bus is a block on a 128-bit port, whose bytes are the block's, and OBUF takes the block of `rsp_block`. -/
theorem portCarriesByteIAtBits8I : Obligations.PortCarriesByteIAtBits8I := by
  intro s r hreq hbusy
  have hblk : reqBlock s = some (portBits r.blk) := by rw [reqBlock, hreq, Option.map_some]
  have hkey : reqKey s = some (portBits r.key) := by rw [reqKey, hreq, Option.map_some]
  refine ⟨hbusy, _, _, _, hblk, hkey, rspBlock_of_request hreq, _, cipherOkMove_of_request hbusy hreq, fun i h => ?_⟩
  exact ⟨extractLsb'_portBits r.blk i h, extractLsb'_portBits r.key i h, extractLsb'_portBits _ i h⟩

end Sys2Proof.Machine
end

section
/-! Runs in which the host has nothing to do or waits (60_exceptions.md R194, 70_reset_and_hazards.md R229, R230): quiescence and
WAIT.IDLE. -/

namespace Sys2Proof.Machine

theorem SameBlock.refl (s : State) : SameBlock s s := ⟨rfl, rfl, rfl⟩

theorem SameBlock.trans {s t u : State} (h : SameBlock s t) (h' : SameBlock t u) : SameBlock s u := by
  obtain ⟨hdec, hchk, herr⟩ := h
  obtain ⟨hdec', hchk', herr'⟩ := h'
  exact ⟨hdec'.trans hdec, hchk'.trans hchk, herr'.trans herr⟩

/-- A run of `m` steps followed by one of `n`. -/
theorem run_add {s t : State} {m : Nat} (h : core.run m s = .next t) (n : Nat) : core.run (m + n) s = core.run n t := by
  induction m generalizing s with
  | zero => cases h; rw [Nat.zero_add]
  | succ m ih =>
    obtain ⟨u, hu, hrun⟩ := run_succ_cases h
    rw [Nat.add_right_comm, run_succ_of_step hu, ih hrun]

/-! ## Quiescence (R230) -/

/-- In a quiescent state a move without a reset is only used up. -/
theorem Quiescent.step {s : State} (h : Quiescent s) (hr : NoReset s) : step s = .next { s with sched := s.sched.tail } := by
  obtain ⟨hp, hidle⟩ := h
  obtain hm | hok | hfail | hreset := mover_cases s
  · exact step_of_idle hm hp
  · exact idleResponsesAreIgnored s hidle (.inl hok)
  · exact idleResponsesAreIgnored s hidle (.inr hfail)
  · exact absurd (List.mem_of_head? hreset) hr

/-- Settles O50: by induction on the number of steps, each of which only uses its move up. -/
theorem quiescentStateStays : Obligations.QuiescentStateStays := by
  intro n
  induction n with
  | zero => exact fun s hq _ => ⟨s, rfl, .refl s, hq⟩
  | succ n ih =>
    intro s hq hr
    have hstep := hq.step hr
    obtain ⟨t, hrun, hsame, hq'⟩ := ih { s with sched := s.sched.tail } hq (step_noReset hstep hr)
    exact ⟨t, (run_succ_of_step hstep n).trans hrun, hsame, hq'⟩

/-! ## WAIT.IDLE (R90, R194) -/

section
variable {s : State} {rest : List HostOp} (hm : HostMoves s) (hp : s.program = waitIdle :: rest)
include hm hp

/-- A poll while BUSY = 1 leaves the host at WAIT.IDLE and the block as it is. -/
theorem step_of_waitIdle_busy (hbusy : s.dec.busy = true) :
    ∃ t : State, step s = .next t ∧ t.program = waitIdle :: rest ∧ SameBlock s t := by
  refine ⟨_, (step_of_waitIdle hm hp).trans (congrArg _ (if_pos hbusy)), rfl, rfl, rfl, rfl⟩

/-- A poll while BUSY = 0 ends WAIT.IDLE. -/
theorem step_of_waitIdle_idle (hidle : s.dec.busy = false) : step s = .next (logRead 0x04 (s.afterFetch rest)) :=
  (step_of_waitIdle hm hp).trans (congrArg _ (if_neg (by simp [hidle])))

end

/-- While BUSY = 1 the host's polls leave the block and the host where they are. -/
theorem run_waitIdle_busy {rest : List HostOp} (k : Nat) {s : State} (hbusy : s.dec.busy = true)
    (hp : s.program = waitIdle :: rest) (hh : HostOnly k s) :
    ∃ t : State, core.run k s = .next t ∧ t.program = waitIdle :: rest ∧ t.sched = s.sched.drop k ∧ SameBlock s t := by
  induction k generalizing s with
  | zero => exact ⟨s, rfl, hp, rfl, .refl s⟩
  | succ k ih =>
    obtain ⟨u, hstep, hprog, hsame⟩ := step_of_waitIdle_busy hh.hostMoves hp hbusy
    have hbusy' : u.dec.busy = true := by rw [hsame.1, hbusy]
    obtain ⟨t, hrun, hprog', hsched, hsame'⟩ := ih hbusy' hprog (hh.tail (step_sched hstep))
    refine ⟨t, (run_succ_of_step hstep k).trans hrun, hprog', ?_, hsame.trans hsame'⟩
    rw [hsched, step_sched hstep, List.drop_tail]

/-- Settles O51: the host alone moves, and its polls change nothing. -/
theorem waitIdleSpinsUnanswered : Obligations.WaitIdleSpinsUnanswered := by
  intro n s rest hbusy hp hhost
  obtain ⟨t, hrun, hprog, -, hsame⟩ := run_waitIdle_busy n hbusy hp fun m hm => hhost m (List.mem_of_mem_take hm)
  exact ⟨t, hrun, hprog, hsame⟩

/-- The state after a success that answers the request `r` (R114). -/
def State.answered (r : Request) (s : State) : State :=
  { s with sched := s.sched.tail, dec := deliverBlock r s.dec }

/-- The step in which the cipher agent answers the outstanding request (R114). -/
theorem step_of_response {s : State} {r : Request} (hok : s.sched.head? = some .cipherOk) (hbusy : s.dec.busy = true)
    (hreq : s.dec.req = some r) : step s = .next (s.answered r) :=
  (step_of_cipherOk hok).trans (cipherOkMove_of_request (s := { s with sched := s.sched.tail }) hbusy hreq)

/-- Settles O52: `k` polls change nothing, the response delivers the block, and the poll after it finds BUSY = 0. -/
theorem waitIdleEndsOnceAnswered : Obligations.WaitIdleEndsOnceAnswered := by
  intro k s r rest hbusy hreq hp hs
  have hhost : HostOnly k s := by
    intro m hm
    rw [hs, List.take_append_of_le_length (by simp), List.take_replicate] at hm
    exact List.eq_of_mem_replicate hm
  obtain ⟨t, hrun, hprog, hsched, hdec, hchk, herr⟩ := run_waitIdle_busy k hbusy hp hhost
  rw [hs, List.drop_left' List.length_replicate] at hsched
  have hresponse : step t = .next (t.answered r) :=
    step_of_response (by rw [hsched]; rfl) (by rw [hdec, hbusy]) (by rw [hdec, hreq])
  have hpoll : step (t.answered r) = .next (logRead 0x04 ((t.answered r).afterFetch rest)) :=
    step_of_waitIdle_idle (.inl (by rw [State.answered, hsched]; rfl)) hprog rfl
  refine ⟨logRead 0x04 ((t.answered r).afterFetch rest), ?_, rfl, rfl, rfl, rfl, herr, hchk⟩
  calc core.run (k + 2) s
      _ = core.run 2 t := run_add hrun 2
      _ = core.run 1 (t.answered r) := run_succ_of_step hresponse 1
      _ = _ := run_succ_of_step hpoll 0

end Sys2Proof.Machine
end

section
/-! CRC.BYTE (42_crc.md R144), the residue of a message followed by its own CRC (R146), and the CRC commands under every order of
moves without a reset (R145). -/

namespace Sys2Proof.Machine

/-- With no verify in progress CRC.BYTE runs one byte update (R144). -/
theorem exec_crcByte_of_inactive {s : State} (h : s.chk.vactive = false) (b : Byte) :
    exec (.crcByte b) s = .next { s with chk := { s.chk with crc := crcStep s.chk.crc b } } := exec_of_noError h rfl rfl

/-- With no verify in progress CRC.INIT loads the seed (R143). -/
theorem exec_crcInit_of_inactive {s : State} (h : s.chk.vactive = false) :
    exec .crcInit s = .next { s with chk := { s.chk with crc := Config.crcSeed } } := exec_of_noError h rfl rfl

/-- Settles O19: CRC.BYTE has PHASE as its only check, which is VACTIVE; its effect is the byte update. -/
theorem crcByteUpdatesCrc : Obligations.CrcByteUpdatesCrc :=
  fun b _ => ⟨commandWord_eq_or 0x21 b, fun hactive => exec_of_phaseError hactive, fun h => exec_crcByte_of_inactive h b⟩

/-! ## The residue (R146) -/

/-- Of a CRC XORed with its own low byte the low byte is 0. -/
theorem getLsbD_xor_lowByte (c : Half) {i : Nat} (h : i < 8) : (c ^^^ zext16 (lowByte c)).getLsbD i = false := by
  simp [zext16, lowByte, h, show i < 16 by omega]

/-- A byte update with the CRC's own low byte shifts the high byte down: no 1 falls out on the way (R141). -/
theorem crcStep_lowByte (c : Half) : crcStep c (lowByte c) = zext16 (highByte c) := by
  rw [crcStep, crcShifts_of_zero 8 _ fun i hi => getLsbD_xor_lowByte c hi]
  refine BitVec.eq_of_getLsbD_eq fun i hi => ?_
  have hhigh : c.getLsbD (8 + i) = true → i < 8 := fun h => by
    have := BitVec.lt_of_getLsbD h
    omega
  simpa [zext16, lowByte, highByte, hi] using hhigh

/-- A byte update that cancels the whole CRC leaves 0 (R141). -/
theorem crcStep_zext16 (b : Byte) : crcStep (zext16 b) b = 0 := by
  rw [crcStep, BitVec.xor_self, crcShifts_of_zero 8 0#16 fun i _ => BitVec.getLsbD_zero]
  rfl

/-- Settles O20: the low byte of the CRC shifts its high byte down, and the high byte then cancels it. -/
theorem crcResidueIsZero : Obligations.CrcResidueIsZero := by
  intro m
  calc crc16 (m ++ [lowByte (crc16 m), highByte (crc16 m)])
      _ = crcStep (crcStep (crc16 m) (lowByte (crc16 m))) (highByte (crc16 m)) := by
        rw [List.append_cons, crc16_concat, crc16_concat]
      _ = crcStep (zext16 (highByte (crc16 m))) (highByte (crc16 m)) := by rw [crcStep_lowByte]
      _ = 0 := crcStep_zext16 _

end Sys2Proof.Machine
end

section
/-! Programs of commands made by the host alone: the run completes in one step a command, and its result is the commands' own, one
after the other. -/

namespace Sys2Proof.Machine

/-- The state with other statements and moves to come, and the same block and reads. -/
def State.withAgents (p : List HostOp) (q : List Move) (s : State) : State := { s with program := p, sched := q }

/-- What executing the command leads to: its error recorded, or its effect (R100). -/
def commandResult (i : Instr) (s : State) : State :=
  match firstError i s with
  | some c => recordError c i.op s
  | none => effect i s

/-- What executing the commands one after the other leads to. -/
def commandsResult (is : List Instr) (s : State) : State := is.foldl (fun t i => commandResult i t) s

theorem commandsResult_cons (i : Instr) (is : List Instr) (s : State) :
    commandsResult (i :: is) s = commandsResult is (commandResult i s) := rfl

theorem commandsResult_append (is js : List Instr) (s : State) :
    commandsResult (is ++ js) s = commandsResult js (commandsResult is s) := List.foldl_append

/-- Executing a command always completes (R100). -/
theorem exec_eq_commandResult (i : Instr) (s : State) : exec i s = .next (commandResult i s) := exec_eq i s

/-- A command that completes in `t` has `t` as its result. -/
theorem commandResult_of_exec {i : Instr} {s t : State} (h : exec i s = .next t) : commandResult i s = t := by
  rw [exec_eq_commandResult] at h
  exact Host.Outcome.next.inj h

/-- No command reads or writes the statements and moves to come. -/
theorem commandResult_withAgents (i : Instr) (p : List HostOp) (q : List Move) (s : State) :
    commandResult i (s.withAgents p q) = (commandResult i s).withAgents p q := by
  have hfirst : firstError i (s.withAgents p q) = firstError i s := by cases i <;> rfl
  have heffect : effect i (s.withAgents p q) = (effect i s).withAgents p q := by cases i <;> rfl
  rw [commandResult, hfirst, commandResult, heffect]
  cases firstError i s <;> rfl

theorem commandsResult_withAgents (is : List Instr) (p : List HostOp) (q : List Move) (s : State) :
    commandsResult is (s.withAgents p q) = (commandsResult is s).withAgents p q := by
  induction is generalizing s with
  | nil => rfl
  | cons i is ih => rw [commandsResult_cons, commandResult_withAgents, ih, commandsResult_cons]

/-- While only the host moves, a program of commands completes in one step a command. -/
theorem run_commands (is : List Instr) {s : State} (hp : s.program = is.map cmd) (hh : HostOnly is.length s) :
    core.run is.length s = .next ((commandsResult is s).withAgents [] (s.sched.drop is.length)) := by
  induction is generalizing s with
  | nil =>
    have hs : s.withAgents [] s.sched = s := by rw [State.withAgents, ← List.map_nil (f := cmd), ← hp]
    exact congrArg _ hs.symm
  | cons i is ih =>
    have hstep : step s = .next ((commandResult i s).withAgents (is.map cmd) s.sched.tail) := by
      rw [step_of_cmd hh.hostMoves hp, exec_eq_commandResult, ← commandResult_withAgents]
      rfl
    rw [List.length_cons, run_succ_of_step hstep, ih rfl (hh.tail (step_sched hstep)), commandsResult_withAgents,
      commandsResult_cons]
    simp only [State.withAgents, List.drop_tail]

/-! ## CRC.INIT and CRC.BYTEs -/

/-- The state with the CRC register at `c`. -/
def State.withCrc (c : Half) (s : State) : State := { s with chk := { s.chk with crc := c } }

@[simp] theorem State.withCrc_vactive (c : Half) (s : State) : (s.withCrc c).chk.vactive = s.chk.vactive := rfl

/-- CRC.BYTEs fold the byte update over the CRC (R142, R144). -/
theorem commandsResult_crcBytes (d : List Byte) {s : State} (h : s.chk.vactive = false) :
    commandsResult (d.map .crcByte) s = s.withCrc (d.foldl crcStep s.chk.crc) := by
  induction d generalizing s with
  | nil => rfl
  | cons b d ih =>
    have hbyte : commandResult (.crcByte b) s = s.withCrc (crcStep s.chk.crc b) :=
      commandResult_of_exec (exec_crcByte_of_inactive h b)
    rw [List.map_cons, commandsResult_cons, hbyte, ih ((s.withCrc_vactive _).trans h)]
    rfl

/-- CRC.INIT and then CRC.BYTEs leave crc16 of the bytes (R142 to R144). -/
theorem commandsResult_crc (d : List Byte) {s : State} (h : s.chk.vactive = false) :
    commandsResult (.crcInit :: d.map .crcByte) s = s.withCrc (crc16 d) := by
  have hinit : commandResult .crcInit s = s.withCrc Config.crcSeed := commandResult_of_exec (exec_crcInit_of_inactive h)
  rw [commandsResult_cons, hinit, commandsResult_crcBytes d ((s.withCrc_vactive _).trans h)]
  rfl

/-- While only the host moves, CRC.INIT and CRC.BYTEs complete in one step a command (R145). -/
theorem run_crc {d : List Byte} {s : State} (h : s.chk.vactive = false) (hp : s.program = cmd .crcInit :: crcBytes d)
    (hh : HostOnly (d.length + 1) s) :
    core.run (d.length + 1) s = .next ((s.withCrc (crc16 d)).withAgents [] (s.sched.drop (d.length + 1))) := by
  have hlen : (Instr.crcInit :: d.map .crcByte).length = d.length + 1 := by simp
  have hp' : s.program = (Instr.crcInit :: d.map .crcByte).map cmd := by rw [hp, List.map_cons, List.map_map]; rfl
  rw [← hlen] at hh ⊢
  rw [run_commands _ hp' hh, commandsResult_crc d h]

/-! ## The CRC commands among other accesses -/

/-- An access that completes and is not of the kind `P` leaves the accesses of that kind that are still to be made: also a POLL
that is made again is not of it (R90). -/
theorem filter_program_of_access {P : HostOp → Bool} {op : HostOp} {rest : List HostOp} {s t : State}
    (h : hostAccess op (s.afterFetch rest) = .next t) (hop : P op = false) :
    t.program.filter P = rest.filter P := by
  obtain hp | ⟨hp, -⟩ := hostAccess_program h
  · rw [hp]; rfl
  · rw [hp, List.filter_cons_of_neg (by simp [hop])]; rfl

/-- How far CRC.INIT and the CRC.BYTEs of `d` have come: the checksum accesses still to be made, and the checksum engine, `c` being
the one before them. -/
inductive CrcProgress (d : List Byte) (c : Checker) : List HostOp → Checker → Prop
  | waiting : CrcProgress d c (cmd .crcInit :: crcBytes d) c
  | fed (p q : List Byte) (h : p ++ q = d) : CrcProgress d c (crcBytes q) { c with crc := crc16 p }

/-- With no checksum access left the CRC is that of the data. -/
theorem CrcProgress.chk_of_done {d : List Byte} {c c' : Checker} (h : CrcProgress d c [] c') :
    c' = { c with crc := crc16 d } := by
  generalize hops : ([] : List HostOp) = ops at h
  cases h with
  | waiting => cases hops
  | fed p q hpq =>
    have hq : q = [] := List.map_eq_nil_iff.1 hops.symm
    rw [← hpq, hq, List.append_nil]

/-- A host step makes another access, or runs the next of the CRC commands, which fails no check (R143, R144). -/
theorem CrcProgress.host_step {d : List Byte} {c : Checker} (hc : c.vactive = false) {s t : State} {op : HostOp}
    {rest : List HostOp} (h : CrcProgress d c (s.program.filter HostOp.usesChecksum) s.chk) (hm : HostMoves s)
    (hp : s.program = op :: rest) (ht : step s = .next t) :
    CrcProgress d c (t.program.filter HostOp.usesChecksum) t.chk := by
  cases hop : op.usesChecksum with
  | false =>
    rw [step_of_access hm hp] at ht
    rw [hp, List.filter_cons_of_neg (by simp [hop])] at h
    rw [filter_program_of_access ht hop, hostAccess_chk ht hop]
    exact h
  | true =>
    rw [hp, List.filter_cons_of_pos hop] at h
    generalize hops : op :: rest.filter HostOp.usesChecksum = ops at h
    generalize hchk : s.chk = c' at h
    have hchk' : (s.afterFetch rest).chk = c' := hchk
    cases h with
    | waiting =>
      obtain ⟨rfl, hrest⟩ := List.cons.inj hops
      rw [step_of_cmd hm hp, exec_crcInit_of_inactive (by rw [hchk', hc]), hchk'] at ht
      cases ht
      exact hrest ▸ .fed [] d rfl
    | fed p q hpq =>
      cases q with
      | nil => cases hops
      | cons b q =>
        obtain ⟨rfl, hrest⟩ := List.cons.inj hops
        rw [step_of_cmd hm hp, exec_crcByte_of_inactive (by rw [hchk', hc]), hchk'] at ht
        cases ht
        have hnext : CrcProgress d c (crcBytes q) { c with crc := crcStep (crc16 p) b } := by
          rw [← crc16_concat]
          exact .fed (p ++ [b]) q (by rw [← hpq, List.append_assoc]; rfl)
        exact hrest ▸ hnext

/-- Whichever agent moves, a step without a reset keeps the CRC commands in progress. -/
theorem CrcProgress.step {d : List Byte} {c : Checker} (hc : c.vactive = false) {s t : State}
    (h : CrcProgress d c (s.program.filter HostOp.usesChecksum) s.chk) (hr : NoReset s) (ht : step s = .next t) :
    CrcProgress d c (t.program.filter HostOp.usesChecksum) t.chk := by
  obtain ⟨hm, op, rest, hp⟩ | ⟨hprogram, hchk, -⟩ := step_access_or_frame hr ht
  · exact h.host_step hc hm hp ht
  · rwa [hprogram, hchk]

/-- What every run of the CRC commands of `d` from `s` keeps: no reset comes, and the commands are in progress. -/
structure CrcRun (d : List Byte) (s t : State) : Prop where
  noReset : NoReset t
  progress : CrcProgress d s.chk (t.program.filter HostOp.usesChecksum) t.chk

theorem CrcRun.of_step {d : List Byte} {s t u : State} (hc : s.chk.vactive = false) (h : CrcRun d s t)
    (hu : Machine.step t = .next u) : CrcRun d s u :=
  ⟨step_noReset hu h.noReset, h.progress.step hc h.noReset hu⟩

/-- Settles O21: under every order of moves the CRC commands stay in progress, and used up they leave the CRC of the data; made by
the host alone they complete one after the other. -/
theorem crcCommandsComputeCrc16 : Obligations.CrcCommandsComputeCrc16 := by
  intro d s hinactive
  refine ⟨fun hp hr n t hrun ht => ?_, run_crc hinactive⟩
  have hstart : CrcRun d s s := ⟨hr, hp ▸ .waiting⟩
  obtain ⟨-, hprog⟩ := run_keeps (fun _ _ => CrcRun.of_step hinactive) n s t hstart hrun
  rw [ht] at hprog
  exact hprog.chk_of_done

end Sys2Proof.Machine
end

section
/-! The message sequence as the document's verify (43_verify.md R160, R164, R165, R168): what it leaves held, under every order of moves
without a reset, and that it completes while only the host moves. -/

namespace Sys2Proof.Machine

/-! ## The held result -/

/-- From 16 bytes on verify compares the CRC of the first 14 bytes with the trailer (R160). -/
theorem verify_of_long {m : List Byte} (h : 16 ≤ m.length) :
    verify m = if crc16 (m.take 14) = trailer m then .ok else .mismatch (crc16 (m.take 14)) (trailer m) :=
  if_neg (Nat.not_lt.2 h)

/-- A message of fewer than 16 bytes is short (R168). -/
theorem verify_of_short {m : List Byte} (h : m.length < 16) : verify m = .short := if_pos h

/-- The result flags of a short message received (R163, R168). -/
theorem verifyFlags_received_of_short {m : List Byte} (h : m.length < 16) : verifyFlags (received m) = (true, false) :=
  verifyFlags_of_short (by rw [received_vcount_toNat]; omega)

/-- The result flags of a message of 16 bytes or more received (R163). -/
theorem verifyFlags_received_of_long {m : List Byte} (h : 16 ≤ m.length) :
    verifyFlags (received m) = (false, decide (crc16 (m.take 14) = trailer m)) :=
  verifyFlags_of_long (by rw [received_vcount_toNat]; omega)

@[simp] theorem received_crc (m : List Byte) : (received m).crc = crc16 (m.take 14) := rfl
@[simp] theorem received_act (m : List Byte) : (received m).act = trailer m := rfl

/-- A message received and closed leaves its verify result held (R164, R165, R168). -/
theorem heldResult_received (m : List Byte) : heldResult (closeVerify (received m)) = some (verify m) := by
  by_cases hshort : m.length < 16
  · simp [heldResult, verifyFlags_received_of_short hshort, verify_of_short hshort]
  · have hlong : 16 ≤ m.length := Nat.not_lt.1 hshort
    rw [verify_of_long hlong]
    by_cases hcrc : crc16 (m.take 14) = trailer m
    · simp [heldResult, verifyFlags_received_of_long hlong, hcrc]
    · simp [heldResult, verifyFlags_received_of_long hlong, hcrc]

/-! ## The sequence made by the host alone -/

/-- The commands of VER.MSG (R90). -/
def verCommands (m : List Byte) : List Instr := .verStart :: (m.map .verByte ++ [.verEnd])

theorem verMsg_eq_map (m : List Byte) : verMsg m = (verCommands m).map cmd := by
  simp [verMsg, verCommands]

/-- VER.BYTEs receive their bytes after those received before (R162). -/
theorem commandsResult_verBytes (q : List Byte) {p : List Byte} {s : State} (h : s.chk = received p) :
    commandsResult (q.map .verByte) s = { s with chk := received (p ++ q) } := by
  induction q generalizing p s with
  | nil => rw [List.append_nil, ← h]; rfl
  | cons b q ih =>
    have hbyte : commandResult (.verByte b) s = { s with chk := received (p ++ [b]) } := by
      rw [commandResult_of_exec (exec_verByte_of_active (by rw [h]; rfl) b), h, feedByte_received]
    rw [List.map_cons, commandsResult_cons, hbyte, ih rfl, List.append_assoc]
    rfl

/-- The commands of VER.MSG leave the message received and closed (R161 to R163). -/
theorem commandsResult_verCommands (m : List Byte) (s : State) :
    commandsResult (verCommands m) s = { s with chk := closeVerify (received m) } := by
  have hstart : commandResult .verStart s = { s with chk := received [] } := commandResult_of_exec (exec_verStart s)
  have hend : commandResult .verEnd { s with chk := received m } = { s with chk := closeVerify (received m) } :=
    commandResult_of_exec (exec_verEnd_of_active rfl)
  rw [verCommands, commandsResult_cons, hstart, commandsResult_append, commandsResult_verBytes m rfl]
  exact hend

/-- Settles O57: the sequence is a program of commands, which the host alone completes, leaving the message received and closed. -/
theorem verifySequenceCompletes : Obligations.VerifySequenceCompletes := by
  intro m s hp hh
  have hlen : (verCommands m).length = m.length + 2 := by simp [verCommands]
  rw [← hlen] at hh ⊢
  refine ⟨_, run_commands _ (hp.trans (verMsg_eq_map m)) hh, ?_⟩
  rw [commandsResult_verCommands]
  exact ⟨rfl, rfl, rfl, rfl, rfl, heldResult_received m⟩

/-! ## The sequence under every order of moves without a reset -/

/-- Settles O26: however the moves interleave the message is received and closed, and from 16 bytes on its flags compare the CRC with
the trailer; with no move listed only the host moves, so the sequence completes. -/
theorem verifyMessageIsVerify : Obligations.VerifyMessageIsVerify := by
  intro m s hlong hp hr
  constructor
  · intro n t hrun ht
    obtain ⟨hchk, -⟩ := run_verMsg hp hr hrun ht
    have hflags := verifyFlags_received_of_long hlong
    rw [hchk]
    refine ⟨rfl, rfl, by rw [closeVerify_vshort, hflags], rfl, rfl, ?_, heldResult_received m⟩
    rw [closeVerify_vok, hflags, verify_of_long hlong, decide_eq_true_iff]
    split
    · next h => exact iff_of_true h rfl
    · next h => exact iff_of_false h (by simp)
  · intro hs
    have hhost : HostOnly (m.length + 2) s := by simp [HostOnly, hs]
    obtain ⟨t, hrun, hprog, -, -, herr, hdec, -⟩ := verifySequenceCompletes m s hp hhost
    exact ⟨t, hrun, hprog, herr, hdec⟩

end Sys2Proof.Machine
end

section
/-! A chunk fed byte by byte (41_decrypt.md R112, R113, R119): what the decrypt engine holds while a chunk is taken in, and the request
that the sixteenth byte issues, under every order of moves without a reset. -/

namespace Sys2Proof.Machine

/-! ## Taking in a chunk -/

/-- A DEC.BYTE is accepted: a frame is open, no request is outstanding and no block is held (R112). -/
structure Accepting (d : Decryptor) : Prop where
  dactive : d.dactive = true
  idle : d.busy = false
  free : d.ovalid = false

/-- The engine `d` is `d₀` with the first `n` bytes of the chunk `blk` taken in. -/
structure Filling (blk : Block) (n : Nat) (d₀ d : Decryptor) : Prop where
  bytes : ∀ (i : Nat) (hi : i < 16), i < n → d.ibuf[i] = blk[i]
  eq : d = { d₀ with ibuf := d.ibuf, ifill := BitVec.ofNat 4 n }

/-- The engine `d` with the whole chunk `blk` taken in and its request issued (R113). -/
def requestFor (blk : Block) (d : Decryptor) : Decryptor :=
  { d with ibuf := blk, ifill := 0, req := some { blk := blk, key := d.key }, busy := true }

@[simp] theorem requestFor_key (blk : Block) (d : Decryptor) : (requestFor blk d).key = d.key := rfl
@[simp] theorem requestFor_dactive (blk : Block) (d : Decryptor) : (requestFor blk d).dactive = d.dactive := rfl
@[simp] theorem requestFor_blkcnt (blk : Block) (d : Decryptor) : (requestFor blk d).blkcnt = d.blkcnt := rfl
@[simp] theorem requestFor_req (blk : Block) (d : Decryptor) : (requestFor blk d).req = some ⟨blk, d.key⟩ := rfl

/-- At IFILL = 0 nothing of any chunk is taken in yet, whatever IBUF holds. -/
theorem Filling.start (blk : Block) {d : Decryptor} (h : d.ifill = 0) : Filling blk 0 d d := by
  refine ⟨fun i _ hi => absurd hi (Nat.not_lt_zero i), ?_⟩
  show d = { d with ifill := 0 }
  rw [← h]

section
variable {blk : Block} {n : Nat} {d₀ d : Decryptor} (h : Filling blk n d₀ d)
include h

/-- Taking in bytes leaves the engine accepting. -/
theorem Filling.accepting (h₀ : Accepting d₀) : Accepting d := by
  rw [h.eq]
  exact ⟨h₀.dactive, h₀.idle, h₀.free⟩

/-- IFILL is the number of bytes taken in (R23). -/
theorem Filling.ifill_toNat (hn : n < 16) : d.ifill.toNat = n := by
  rw [h.eq]
  exact Nat.mod_eq_of_lt hn

/-- The bytes of the chunk stay in IBUF when the next one is stored, which is then in it too. -/
theorem Filling.bytes_set (hn : n < 16) (i : Nat) (hi : i < 16) (hin : i < n + 1) :
    (d.ibuf.set d.ifill.toNat blk[n] d.ifill.isLt)[i] = blk[i] := by
  rw [Vector.getElem_set]
  simp only [h.ifill_toNat hn]
  split
  · next heq => subst heq; rfl
  · next hne => exact h.bytes i hi (by omega)

/-- A byte that does not complete the chunk (R112). -/
theorem Filling.acceptByte (hn : n < 15) : Filling blk (n + 1) d₀ (acceptByte (blk[n]'(by omega)) d) := by
  have hfill : d.ifill ≠ 15 := fun h15 => by
    have := h.ifill_toNat (by omega)
    rw [h15] at this
    exact absurd this (by simp; omega)
  rw [acceptByte_of_not_last _ hfill]
  refine ⟨h.bytes_set (by omega), ?_⟩
  rw [h.eq]
  simp only [BitVec.ofNat_add]
  rfl

end

/-- The byte that completes the chunk issues the request for it (R113). -/
theorem Filling.acceptByte_last {blk : Block} {d₀ d : Decryptor} (h : Filling blk 15 d₀ d) :
    Machine.acceptByte blk[15] d = requestFor blk d₀ := by
  have hfill : d.ifill = 15 := BitVec.eq_of_toNat_eq (h.ifill_toNat (by omega))
  have hibuf : d.ibuf.set 15 blk[15] = blk := Vector.ext fun i hi => by
    have := h.bytes_set (by omega) i hi (by omega)
    simpa only [h.ifill_toNat (by omega)] using this
  rw [acceptByte_of_last _ hfill, hibuf, h.eq]
  rfl

/-- The sixteen bytes of a chunk, given one at a time: the next either goes on filling or issues the request (R112, R113). -/
theorem Filling.next {blk : Block} {n : Nat} {d₀ d : Decryptor} (h : Filling blk n d₀ d) (hn : n < 16) :
    (n + 1 < 16 ∧ Filling blk (n + 1) d₀ (Machine.acceptByte blk[n] d)) ∨
      (n + 1 = 16 ∧ Machine.acceptByte blk[n] d = requestFor blk d₀) := by
  by_cases hlast : n = 15
  · subst hlast
    exact .inr ⟨rfl, h.acceptByte_last⟩
  · exact .inl ⟨by omega, h.acceptByte (by omega)⟩

/-- Byte `i` of chunk `j` of a frame (R110). -/
theorem getElem_chunk (f : List Byte) (j i : Nat) (hi : i < 16) : (chunk f j)[i] = f.getD (16 * j + i) 0 := by
  simp [chunk]

/-- Byte `n` of the frame's first chunk is the first of those from `n` on. -/
theorem drop_eq_chunk_cons {bs : List Byte} {n : Nat} (hbs : bs.length = 16) (hn : n < 16) :
    bs.drop n = (chunk bs 0)[n] :: bs.drop (n + 1) := by
  rw [getElem_chunk, List.drop_eq_getElem_cons (by omega), Nat.mul_zero, Nat.zero_add, List.getD_eq_getElem _ _ (by omega)]

/-- An accepting engine that is filling takes in any next byte (R112). -/
theorem exec_decByte_of_filling {blk : Block} {n : Nat} {d₀ : Decryptor} {s : State} (h₀ : Accepting d₀)
    (h : Filling blk n d₀ s.dec) (b : Byte) : exec (.decByte b) s = .next { s with dec := acceptByte b s.dec } := by
  obtain ⟨hopen, hidle, hfree⟩ := h.accepting h₀
  exact exec_decByte_of_accepted hopen b hidle hfree

/-! ## Sixteen DEC.BYTEs made by the host alone -/

/-- The DEC.BYTEs of the rest of a chunk issue the request for it (R112, R113). -/
theorem commandsResult_decBytes {bs : List Byte} (hbs : bs.length = 16) {d₀ : Decryptor} (h₀ : Accepting d₀) (q : List Byte)
    {n : Nat} (hq : bs.drop n = q) (hn : n < 16) {s : State} (h : Filling (chunk bs 0) n d₀ s.dec) :
    commandsResult (q.map .decByte) s = { s with dec := requestFor (chunk bs 0) d₀ } := by
  induction q generalizing n s with
  | nil => exact absurd (List.drop_eq_nil_iff.1 hq) (by omega)
  | cons b q ih =>
    rw [drop_eq_chunk_cons hbs hn] at hq
    obtain ⟨rfl, hrest⟩ := List.cons.inj hq
    rw [List.map_cons, commandsResult_cons, commandResult_of_exec (exec_decByte_of_filling h₀ h _)]
    obtain ⟨hn', hfill⟩ | ⟨hlast, hreq⟩ := h.next hn
    · exact ih hrest hn' hfill
    · rw [hlast, List.drop_of_length_le (by omega)] at hrest
      rw [← hrest, hreq]
      rfl

/-- While only the host moves, the sixteen DEC.BYTEs of a chunk complete in one step each, and issue its request (R119). -/
theorem run_decFeed {bs : List Byte} (hbs : bs.length = 16) {s : State} (h₀ : Accepting s.dec) (hfill : s.dec.ifill = 0)
    (hp : s.program = decFeed bs) (hh : HostOnly 16 s) :
    core.run 16 s = .next ({ s with dec := requestFor (chunk bs 0) s.dec }.withAgents [] (s.sched.drop 16)) := by
  have hlen : (bs.map Instr.decByte).length = 16 := by rw [List.length_map, hbs]
  have hp' : s.program = (bs.map Instr.decByte).map cmd := by rw [hp, List.map_map]; rfl
  rw [← hlen] at hh
  have hrun := run_commands _ hp' hh
  rwa [commandsResult_decBytes hbs h₀ bs List.drop_zero (by omega) (.start _ hfill), hlen] at hrun

/-! ## Sixteen DEC.BYTEs among other accesses and moves -/

/-- How far the DEC.BYTEs of the chunk `bs` have come from the engine `d₀`: the decrypt accesses still to be made, and the engine. The
request may be answered, and may fail where the port can fail and `mayErr` holds. -/
inductive ChunkProgress (bs : List Byte) (d₀ : Decryptor) (mayErr : Prop) : List HostOp → Decryptor → Prop
  | feeding (n : Nat) (hn : n < 16) (d : Decryptor) (h : Filling (chunk bs 0) n d₀ d) :
    ChunkProgress bs d₀ mayErr (decFeed (bs.drop n)) d
  | requested : ChunkProgress bs d₀ mayErr [] (requestFor (chunk bs 0) d₀)
  | delivered : ChunkProgress bs d₀ mayErr [] (deliverBlock ⟨chunk bs 0, d₀.key⟩ (requestFor (chunk bs 0) d₀))
  | abandoned (hfail : Config.cipherMayFail = true) (herr : mayErr) :
    ChunkProgress bs d₀ mayErr [] (abandonFrame (requestFor (chunk bs 0) d₀))

section
variable {bs : List Byte} {d₀ : Decryptor} {mayErr : Prop}

/-- With no decrypt access left the request is outstanding, answered or failed. -/
theorem ChunkProgress.dec_of_done (hbs : bs.length = 16) {d : Decryptor} (h : ChunkProgress bs d₀ mayErr [] d) :
    d = requestFor (chunk bs 0) d₀ ∨ d = deliverBlock ⟨chunk bs 0, d₀.key⟩ (requestFor (chunk bs 0) d₀) ∨
      (Config.cipherMayFail = true ∧ mayErr ∧ d = abandonFrame (requestFor (chunk bs 0) d₀)) := by
  generalize hops : ([] : List HostOp) = ops at h
  cases h with
  | feeding n hn =>
    have hlen := congrArg List.length hops
    simp [decFeed] at hlen
    omega
  | requested => exact .inl rfl
  | delivered => exact .inr (.inl rfl)
  | abandoned hfail herr => exact .inr (.inr ⟨hfail, herr, rfl⟩)

variable (h₀ : Accepting d₀)
include h₀

/-- A success answers the request issued, and finds none before and after (R114, R116). -/
theorem ChunkProgress.deliver {ops : List HostOp} {d : Decryptor} (h : ChunkProgress bs d₀ mayErr ops d)
    (hbusy : d.busy = true) {r : Request} (hreq : d.req = some r) : ChunkProgress bs d₀ mayErr ops (deliverBlock r d) := by
  cases h with
  | feeding n hn _ hfill => exact absurd hbusy (by simp [(hfill.accepting h₀).idle])
  | requested =>
    rw [requestFor_req, Option.some_inj] at hreq
    exact hreq ▸ .delivered
  | delivered | abandoned => cases hbusy

/-- A failure fails the request issued, and finds none before and after (R115, R116). -/
theorem ChunkProgress.abandon {ops : List HostOp} {d : Decryptor} (h : ChunkProgress bs d₀ mayErr ops d)
    (hbusy : d.busy = true) (hfail : Config.cipherMayFail = true) (herr : mayErr) :
    ChunkProgress bs d₀ mayErr ops (abandonFrame d) := by
  cases h with
  | feeding n hn _ hfill => exact absurd hbusy (by simp [(hfill.accepting h₀).idle])
  | requested => exact .abandoned hfail herr
  | delivered | abandoned => cases hbusy

variable (hbs : bs.length = 16)
include hbs

/-- A host step makes another access, or the next of the DEC.BYTEs, which is accepted (R112). -/
theorem ChunkProgress.host_step {s t : State} {op : HostOp} {rest : List HostOp}
    (h : ChunkProgress bs d₀ mayErr (s.program.filter HostOp.usesDecrypt) s.dec) (hm : HostMoves s)
    (hp : s.program = op :: rest) (ht : Machine.step s = .next t) :
    ChunkProgress bs d₀ mayErr (t.program.filter HostOp.usesDecrypt) t.dec := by
  cases hop : op.usesDecrypt with
  | false =>
    rw [step_of_access hm hp] at ht
    rw [hp, List.filter_cons_of_neg (by simp [hop])] at h
    rw [filter_program_of_access ht hop, hostAccess_dec ht hop]
    exact h
  | true =>
    rw [hp, List.filter_cons_of_pos hop] at h
    generalize hops : op :: rest.filter HostOp.usesDecrypt = ops at h
    generalize hdec : s.dec = d at h
    cases h with
    | feeding n hn _ hfill =>
      rw [drop_eq_chunk_cons hbs hn] at hops
      obtain ⟨rfl, hrest⟩ := List.cons.inj hops
      have hfill' : Filling (chunk bs 0) n d₀ (s.afterFetch rest).dec := hdec ▸ hfill
      rw [step_of_cmd hm hp, exec_decByte_of_filling h₀ hfill'] at ht
      cases ht
      show ChunkProgress bs d₀ mayErr (rest.filter HostOp.usesDecrypt) (acceptByte _ _)
      rw [hrest]
      obtain ⟨hn', hfill''⟩ | ⟨hlast, hreq⟩ := hfill'.next hn
      · exact .feeding (n + 1) hn' _ hfill''
      · rw [hreq, List.drop_of_length_le (by omega)]
        exact .requested
    | requested | delivered | abandoned => cases hops

/-- Whichever agent moves, a step without a reset keeps the chunk in progress, failures being possible as far as they are listed. -/
theorem ChunkProgress.step {s t : State} (h : ChunkProgress bs d₀ mayErr (s.program.filter HostOp.usesDecrypt) s.dec)
    (hr : NoReset s) (herr : Move.cipherErr ∈ s.sched → mayErr) (ht : Machine.step s = .next t) :
    ChunkProgress bs d₀ mayErr (t.program.filter HostOp.usesDecrypt) t.dec := by
  obtain ⟨-, -, rfl⟩ | ⟨hm, op, rest, hp, -⟩ | ⟨-, hc⟩ | ⟨hfail, hc⟩ | ⟨hreset, -⟩ := step_cases ht
  · exact h
  · exact h.host_step h₀ hbs hm hp ht
  · obtain ⟨-, rfl⟩ | ⟨hbusy, r, hreq, rfl⟩ := cipherOkMove_cases hc
    · exact h
    · exact h.deliver h₀ hbusy hreq
  · rw [cipherErrMove_eq] at hc
    cases hc
    split
    · next hb => exact h.abandon h₀ hb.1 hb.2 (herr (List.mem_of_head? hfail))
    · exact h
  · exact absurd (List.mem_of_head? hreset) hr

end

/-- What every run of a chunk from `s` keeps: no reset comes, no failure is listed that was not, and the chunk is in progress. -/
structure ChunkRun (bs : List Byte) (s t : State) : Prop where
  noReset : NoReset t
  cipherErr : Move.cipherErr ∈ t.sched → Move.cipherErr ∈ s.sched
  progress : ChunkProgress bs s.dec (Move.cipherErr ∈ s.sched) (t.program.filter HostOp.usesDecrypt) t.dec

theorem ChunkRun.of_step {bs : List Byte} (hbs : bs.length = 16) {s t u : State} (h₀ : Accepting s.dec) (h : ChunkRun bs s t)
    (hu : step t = .next u) : ChunkRun bs s u := by
  obtain ⟨hr, herr, hprog⟩ := h
  refine ⟨step_noReset hu hr, fun hmem => herr ?_, hprog.step h₀ hbs hr herr hu⟩
  rw [step_sched hu] at hmem
  exact List.mem_of_mem_tail hmem

/-- Settles O53: under every order of moves the chunk stays in progress, and used up it leaves one of three engines; made by the host
alone the DEC.BYTEs issue its request. -/
theorem requestDependsOnlyOnItsChunk : Obligations.RequestDependsOnlyOnItsChunk := by
  intro bs s hbs hopen hidle hfree hfill
  have h₀ : Accepting s.dec := ⟨hopen, hidle, hfree⟩
  have hreq : requestFor (chunk bs 0) s.dec =
      { s.dec with ibuf := chunk bs 0, req := some { blk := chunk bs 0, key := s.dec.key }, busy := true } := by
    rw [requestFor, ← hfill]
  constructor
  · intro hp hr n t hrun ht
    have hstart : ChunkRun bs s s := ⟨hr, id, hp ▸ .feeding 0 (by omega) s.dec (.start _ hfill)⟩
    obtain ⟨-, -, hprog⟩ := run_keeps (fun _ _ => ChunkRun.of_step hbs h₀) n s t hstart hrun
    rw [ht] at hprog
    obtain hdec | hdec | ⟨hmay, hmem, hdec⟩ := hprog.dec_of_done hbs
    · exact .inl (hdec.trans hreq)
    · refine .inr (.inl ?_)
      rw [hdec, hreq, deliverBlock, ← hidle]
    · refine .inr (.inr ⟨hmay, hmem, ?_⟩)
      rw [hdec, hreq, abandonFrame, ← hidle, ← hfill]
  · intro hp hh
    rw [run_decFeed hbs h₀ hfill hp hh, hreq]
    rfl

end Sys2Proof.Machine
end

section
/-! The frame sequence (41_decrypt.md R120, R121): how far it has come under any order of host moves and successful responses, what it
leaves used up, and an order of moves that uses it up. -/

namespace Sys2Proof.Machine

/-! ## The sequence from a byte on -/

/-- The host's statements from frame byte number `n` on (R120). -/
def frameRest (f : List Byte) (n : Nat) : List HostOp := frameBytes n (f.drop n) ++ [cmd .decEnd]

/-- The host's statements once a block is requested, `n` frame bytes being fed (R120). -/
def blockRest (f : List Byte) (n : Nat) : List HostOp := readOut ++ cmd .decPop :: frameRest f n

theorem frameProgram_eq (f : List Byte) : frameProgram f = cmd .decStart :: frameRest f 0 := rfl

/-- Past the frame's last byte only DEC.END is left (R120). -/
theorem frameRest_length (f : List Byte) : frameRest f f.length = [cmd .decEnd] := by
  rw [frameRest, List.drop_length]
  rfl

/-- The byte number `n` is fed, and after the last byte of a chunk its block is awaited, read and released (R120). -/
theorem frameRest_of_lt {f : List Byte} {n : Nat} (hn : n < f.length) :
    frameRest f n = cmd (.decByte ((chunk f (n / 16))[n % 16]'(Nat.mod_lt n (by omega)))) ::
      if n % 16 = 15 then waitIdle :: blockRest f (n + 1) else frameRest f (n + 1) := by
  rw [getElem_chunk, Nat.div_add_mod, List.getD_eq_getElem _ _ hn, frameRest, List.drop_eq_getElem_cons hn, frameBytes]
  split
  · simp [blockRest, frameRest]
  · rfl

/-! ## The engine during the sequence -/

/-- The engine accepts the bytes of block `j` under the key `k`, the blocks before it being delivered. -/
structure Ready (k : Block) (j : Nat) (d : Decryptor) : Prop where
  accepting : Accepting d
  key : d.key = k
  blkcnt : d.blkcnt = BitVec.ofNat 16 j

/-- Block `j` of the frame is held. -/
structure Held (f : List Byte) (k : Block) (j : Nat) (d : Decryptor) : Prop where
  dactive : d.dactive = true
  idle : d.busy = false
  ovalid : d.ovalid = true
  obuf : d.obuf = Config.decryptBlock k (chunk f j)
  ifill : d.ifill = 0
  key : d.key = k
  blkcnt : d.blkcnt = BitVec.ofNat 16 (j + 1)

/-- The engine after the sequence (R120, R121). -/
structure FrameEnd (f : List Byte) (k : Block) (d : Decryptor) : Prop where
  key : d.key = k
  blkcnt : d.blkcnt = BitVec.ofNat 16 (f.length / 16)
  drop : d.drop = BitVec.ofNat 4 (f.length % 16)
  dactive : d.dactive = false
  ifill : d.ifill = 0
  ovalid : d.ovalid = false
  idle : d.busy = false

/-- DEC.START makes the engine ready for block 0 (R111). -/
theorem Ready.openFrame {k : Block} {d : Decryptor} (hidle : d.busy = false) (hkey : d.key = k) : Ready k 0 (openFrame d) :=
  ⟨⟨rfl, hidle, rfl⟩, hkey, rfl⟩

/-- The response to block `j`'s request delivers the block (R114). -/
theorem Ready.held_of_response {f : List Byte} {k : Block} {j : Nat} {d : Decryptor} (h : Ready k j d) :
    Held f k j (deliverBlock ⟨chunk f j, d.key⟩ (requestFor (chunk f j) d)) := by
  refine ⟨?_, rfl, rfl, ?_, rfl, ?_, ?_⟩
  · rw [deliverBlock_dactive, requestFor_dactive, h.accepting.dactive]
  · rw [deliverBlock_obuf, h.key]
  · rw [deliverBlock_key, requestFor_key, h.key]
  · rw [deliverBlock_blkcnt, requestFor_blkcnt]
    exact (congrArg (· + 1) h.blkcnt).trans (BitVec.ofNat_add j 1).symm

/-- DEC.POP makes the engine ready for the next block (R117). -/
theorem Held.ready_of_pop {f : List Byte} {k : Block} {j : Nat} {d : Decryptor} (h : Held f k j d) :
    Ready k (j + 1) { d with ovalid := false } :=
  ⟨⟨h.dactive, h.idle, rfl⟩, h.key, h.blkcnt⟩

/-- DEC.END with `n` bytes fed closes a frame of `n` bytes (R118). -/
theorem Ready.frameEnd {f : List Byte} {k : Block} {d₀ d : Decryptor} (h₀ : Ready k (f.length / 16) d₀)
    (h : Filling (chunk f (f.length / 16)) (f.length % 16) d₀ d) : FrameEnd f k (closeFrame d) := by
  rw [h.eq]
  exact ⟨h₀.key, h₀.blkcnt, rfl, rfl, rfl, h₀.accepting.free, h₀.accepting.idle⟩

/-! ## What the host reads -/

/-- What the host reads of the first `j` blocks of the frame (R120). -/
def frameReads (f : List Byte) (k : Block) (j : Nat) : List (Offset × Word) :=
  (List.range j).flatMap fun i => blockReads (Config.decryptBlock k (chunk f i))

theorem frameReads_succ (f : List Byte) (k : Block) (j : Nat) :
    frameReads f k (j + 1) = frameReads f k j ++ blockReads (Config.decryptBlock k (chunk f j)) := by
  rw [frameReads, List.range_succ, List.flatMap_append, List.flatMap_singleton]
  rfl

/-- What the host reads of all blocks of the frame is what decrypt gives (R110). -/
theorem frameReads_eq_decryptBlocks (f : List Byte) (k : Block) :
    frameReads f k (f.length / 16) = (decryptBlocks f k).flatMap blockReads := by
  rw [decryptBlocks, List.flatMap_map]
  rfl

/-- A poll of STATUS is no read of an OUT register (R42). -/
theorem outReads_status (l : List (Offset × Word)) (v : Word) : outReads (l ++ [(0x04, v)]) = outReads l := by
  rw [outReads, List.filter_append]
  exact List.append_nil _

/-- A read of OUTn is one (R42). -/
theorem outReads_out (l : List (Offset × Word)) (n : Fin 4) (v : Word) :
    outReads (l ++ [((Reg.out n).offset, v)]) = outReads l ++ [((Reg.out n).offset, v)] := by
  have hout : ∀ n : Fin 4, 0x30 ≤ (Reg.out n).offset.toNat := by decide
  rw [outReads, List.filter_append, List.filter_cons_of_pos (by simpa using hout n)]
  rfl

/-- READ.OUT from its read number `i` on begins with that of OUTi (R90). -/
theorem readOut_drop : ∀ i : Fin 4, readOut.drop i.val = readFrom (.out i) :: readOut.drop (i.val + 1) := by decide

/-- The first `i + 1` reads of a block end with that of OUTi (R49, R90). -/
theorem blockReads_take (b : Block) (i : Fin 4) :
    (blockReads b).take (i.val + 1) = (blockReads b).take i.val ++ [((Reg.out i).offset, blockWord b i)] := by
  match i with
  | 0 | 1 | 2 | 3 => rfl

/-! ## How far the sequence has come -/

/-- How far the sequence of the frame `f` has come under the key `k`: the host's remaining statements, the decrypt engine, and what
the host has read of OUT0 to OUT3. -/
inductive FrameProgress (f : List Byte) (k : Block) : List HostOp → Decryptor → List (Offset × Word) → Prop
  | start (d : Decryptor) (hidle : d.busy = false) (hkey : d.key = k) : FrameProgress f k (frameProgram f) d []
  | feeding (n : Nat) (hn : n ≤ f.length) (d₀ d : Decryptor) (h₀ : Ready k (n / 16) d₀)
    (h : Filling (chunk f (n / 16)) (n % 16) d₀ d) : FrameProgress f k (frameRest f n) d (frameReads f k (n / 16))
  | requested (j : Nat) (hj : 16 * (j + 1) ≤ f.length) (d : Decryptor) (h : Ready k j d) :
    FrameProgress f k (waitIdle :: blockRest f (16 * (j + 1))) (requestFor (chunk f j) d) (frameReads f k j)
  | answered (j : Nat) (hj : 16 * (j + 1) ≤ f.length) (d : Decryptor) (h : Held f k j d) :
    FrameProgress f k (waitIdle :: blockRest f (16 * (j + 1))) d (frameReads f k j)
  | reading (j : Nat) (hj : 16 * (j + 1) ≤ f.length) (i : Nat) (hi : i ≤ 4) (d : Decryptor) (h : Held f k j d) :
    FrameProgress f k (readOut.drop i ++ cmd .decPop :: frameRest f (16 * (j + 1))) d
      (frameReads f k j ++ (blockReads (Config.decryptBlock k (chunk f j))).take i)
  | ended (d : Decryptor) (h : FrameEnd f k d) : FrameProgress f k [] d (frameReads f k (f.length / 16))

/-- Used up, the sequence has read every block and closed the frame. -/
theorem FrameProgress.of_done {f : List Byte} {k : Block} {d : Decryptor} {l : List (Offset × Word)}
    (h : FrameProgress f k [] d l) : l = frameReads f k (f.length / 16) ∧ FrameEnd f k d := by
  generalize hops : ([] : List HostOp) = ops at h
  cases h with
  | start => cases hops
  | feeding n => simp [frameRest] at hops
  | requested | answered => cases hops
  | reading j _ i => simp at hops
  | ended _ h => exact ⟨rfl, h⟩

/-- The sequence begun in `s` has come to `u`: no error is recorded by it and the checksum engine is as it was. -/
structure FrameState (f : List Byte) (s u : State) : Prop where
  err : u.err = s.err
  chk : u.chk = s.chk
  progress : ∃ l, outReads u.reads = outReads s.reads ++ l ∧ FrameProgress f s.dec.key u.program u.dec l

/-- From `u` the sequence goes on: the step answers a state it has come to, and unless a request is outstanding one statement is used
up. -/
def Advances (f : List Byte) (s u : State) : Prop :=
  ∃ t, step u = .next t ∧ FrameState f s t ∧ (u.dec.busy = false → t.program = u.program.tail)

section
variable {f : List Byte} {s u : State} {rest : List HostOp} {l : List (Offset × Word)}
  (herr : u.err = s.err) (hchk : u.chk = s.chk) (hm : HostMoves u)
include herr hchk hm

/-- A command of the sequence that fails no check and writes the decrypt engine alone. -/
theorem Advances.of_command {i : Instr} {d : Decryptor} (hp : u.program = cmd i :: rest)
    (hex : exec i (u.afterFetch rest) = .next { u.afterFetch rest with dec := d })
    (hreads : outReads u.reads = outReads s.reads ++ l) (hprog : FrameProgress f s.dec.key rest d l) : Advances f s u :=
  ⟨_, (step_of_cmd hm hp).trans hex, ⟨herr, hchk, l, hreads, hprog⟩, fun _ => by rw [hp]; rfl⟩

/-- WAIT.IDLE goes on waiting while BUSY = 1, and ends where it is 0. -/
theorem Advances.of_waitIdle (hp : u.program = waitIdle :: rest) (hreads : outReads u.reads = outReads s.reads ++ l)
    (hbusy : u.dec.busy = true → FrameProgress f s.dec.key (waitIdle :: rest) u.dec l)
    (hidle : u.dec.busy = false → FrameProgress f s.dec.key rest u.dec l) : Advances f s u := by
  have hlog : ∀ v, outReads (u.reads ++ [(0x04, v)]) = outReads s.reads ++ l := fun v => (outReads_status _ v).trans hreads
  cases hb : u.dec.busy with
  | true =>
    refine ⟨_, (step_of_waitIdle hm hp).trans (congrArg _ (if_pos hb)), ⟨herr, hchk, l, hlog _, hbusy hb⟩, fun h => ?_⟩
    exact absurd (hb.symm.trans h) (by decide)
  | false => exact ⟨_, step_of_waitIdle_idle hm hp hb, ⟨herr, hchk, l, hlog _, hidle hb⟩, fun _ => by rw [hp]; rfl⟩

/-- A read of OUTn is added to what the host has read. -/
theorem Advances.of_readOut {n : Fin 4} (hp : u.program = readFrom (.out n) :: rest)
    (hreads : outReads u.reads = outReads s.reads ++ l)
    (hprog : FrameProgress f s.dec.key rest u.dec (l ++ [((Reg.out n).offset, blockWord u.dec.obuf n)])) : Advances f s u := by
  refine ⟨_, step_of_readOut hm hp, ⟨herr, hchk, _, ?_, hprog⟩, fun _ => by rw [hp]; rfl⟩
  rw [outReads_out, hreads, List.append_assoc]

/-- A byte of the frame is taken in, and the last of a chunk issues its request. -/
theorem Advances.of_byte {n : Nat} (hn : n < f.length) {d₀ : Decryptor} (h₀ : Ready s.dec.key (n / 16) d₀)
    (h : Filling (chunk f (n / 16)) (n % 16) d₀ u.dec) (hp : u.program = frameRest f n)
    (hreads : outReads u.reads = outReads s.reads ++ frameReads f s.dec.key (n / 16)) : Advances f s u := by
  rw [frameRest_of_lt hn] at hp
  refine .of_command herr hchk hm hp (exec_decByte_of_filling (s := u.afterFetch _) h₀.accepting h _) hreads ?_
  obtain ⟨hn', hfill⟩ | ⟨hlast, hreq⟩ := h.next (Nat.mod_lt n (by omega))
  · have hdiv : (n + 1) / 16 = n / 16 := by omega
    have hmod : (n + 1) % 16 = n % 16 + 1 := by omega
    rw [if_neg (by omega)]
    have hnext := FrameProgress.feeding (f := f) (k := s.dec.key) (n + 1) hn d₀ _ (by rwa [hdiv]) (by rwa [hdiv, hmod])
    rwa [hdiv] at hnext
  · have hn' : 16 * (n / 16 + 1) = n + 1 := by omega
    rw [if_pos (by omega), ← hn']
    exact hreq ▸ .requested (n / 16) (by omega) d₀ h₀

end

/-- Wherever the sequence has come, the host's move goes on with it (R120). -/
theorem FrameState.host_step {f : List Byte} {s u : State} (h : FrameState f s u) (hm : HostMoves u)
    (hne : u.program ≠ []) : Advances f s u := by
  obtain ⟨herr, hchk, l, hreads, hprog⟩ := h
  generalize hops : u.program = ops at hprog
  generalize hdec : u.dec = d at hprog
  cases hprog with
  | start _ hidle hkey =>
    subst hdec
    rw [frameProgram_eq] at hops
    exact .of_command herr hchk hm hops (exec_of_noError rfl hidle rfl) hreads
      (.feeding 0 (Nat.zero_le _) _ _ (.openFrame hidle hkey) (.start _ rfl))
  | feeding n hn d₀ _ h₀ hfill =>
    subst hdec
    obtain hn | rfl := Nat.lt_or_eq_of_le hn
    · exact .of_byte herr hchk hm hn h₀ hfill hops hreads
    · rw [frameRest_length] at hops
      obtain ⟨hopen, hidle, -⟩ := hfill.accepting h₀.accepting
      exact .of_command herr hchk hm hops (exec_of_noError (phaseError_decEnd_of_open hopen) hidle rfl) hreads
        (.ended _ (h₀.frameEnd hfill))
  | requested j hj d₀ h₀ =>
    refine .of_waitIdle herr hchk hm hops hreads (fun _ => ?_) (fun hidle => ?_)
    · rw [hdec]; exact .requested j hj d₀ h₀
    · rw [hdec] at hidle; cases hidle
  | answered j hj _ hheld =>
    subst hdec
    refine .of_waitIdle herr hchk hm hops hreads (fun hbusy => ?_) (fun _ => ?_)
    · exact absurd (hbusy.symm.trans hheld.idle) (by decide)
    · have hread := FrameProgress.reading (f := f) (k := s.dec.key) j hj 0 (by omega) _ hheld
      rwa [List.take_zero, List.append_nil] at hread
  | reading j hj i hi _ hheld =>
    subst hdec
    obtain hi | rfl := Nat.lt_or_eq_of_le hi
    · rw [readOut_drop ⟨i, hi⟩] at hops
      refine .of_readOut herr hchk hm hops hreads ?_
      rw [hheld.obuf, List.append_assoc, ← blockReads_take _ ⟨i, hi⟩]
      exact .reading j hj (i + 1) hi _ hheld
    · have hdiv : 16 * (j + 1) / 16 = j + 1 := by omega
      have hmod : 16 * (j + 1) % 16 = 0 := by omega
      have hpop := exec_of_noError (i := .decPop) (s := u.afterFetch (frameRest f (16 * (j + 1))))
        (by simp [phaseError, State.afterFetch, hheld.ovalid]) rfl rfl
      refine .of_command herr hchk hm hops hpop hreads ?_
      have hnext := FrameProgress.feeding (16 * (j + 1)) hj _ _ (by rw [hdiv]; exact hheld.ready_of_pop)
        (by rw [hmod]; exact .start _ hheld.ifill)
      rwa [hdiv, frameReads_succ] at hnext
  | ended => exact absurd hops hne

/-- Wherever the sequence has come, a success answers the request outstanding or is ignored; no statement is used up (R114, R116). -/
theorem FrameState.response_step {f : List Byte} {s u : State} (h : FrameState f s u) (hok : u.sched.head? = some .cipherOk) :
    ∃ t, step u = .next t ∧ FrameState f s t ∧ t.program = u.program ∧ t.dec.busy = false := by
  cases hbusy : u.dec.busy with
  | false => exact ⟨_, idleResponsesAreIgnored u hbusy (.inl hok), ⟨h.err, h.chk, h.progress⟩, rfl, hbusy⟩
  | true =>
    obtain ⟨herr, hchk, l, hreads, hprog⟩ := h
    generalize hops : u.program = ops at hprog
    generalize hdec : u.dec = d at hprog
    rw [hdec] at hbusy
    cases hprog with
    | start _ hidle => exact absurd (hbusy.symm.trans hidle) (by decide)
    | feeding n _ d₀ _ h₀ hfill => exact absurd (hbusy.symm.trans (hfill.accepting h₀.accepting).idle) (by decide)
    | requested j hj d₀ h₀ =>
      refine ⟨_, step_of_response hok (by rw [hdec, hbusy]) (r := ⟨chunk f j, d₀.key⟩) (by rw [hdec]; rfl),
        ⟨herr, hchk, _, hreads, ?_⟩, hops, rfl⟩
      show FrameProgress f s.dec.key u.program (deliverBlock _ u.dec) _
      rw [hops, hdec]
      exact .answered j hj _ h₀.held_of_response
    | answered _ _ _ hheld | reading _ _ _ _ _ hheld => exact absurd (hbusy.symm.trans hheld.idle) (by decide)
    | ended _ hend => exact absurd (hbusy.symm.trans hend.idle) (by decide)

/-- The sequence begins in any state with no request outstanding. -/
theorem FrameState.begin {f : List Byte} {s : State} (hidle : s.dec.busy = false) (hp : s.program = frameProgram f) :
    FrameState f s s :=
  ⟨rfl, rfl, [], (List.append_nil _).symm, hp ▸ .start s.dec hidle rfl⟩

/-! ## Every order of host moves and successful responses -/

/-- Whichever of the two agents moves, the sequence goes on or has been used up. -/
theorem FrameState.of_step {f : List Byte} {s u t : State} (h : FrameState f s u) (hr : NoReset u) (hc : NoCipherErr u)
    (ht : step u = .next t) : FrameState f s t := by
  obtain hm | hok | hfail | hreset := mover_cases u
  · by_cases hne : u.program = []
    · rw [step_of_idle hm hne] at ht
      cases ht
      exact ⟨h.err, h.chk, h.progress⟩
    · obtain ⟨t', ht', hstate, -⟩ := h.host_step hm hne
      cases ht.symm.trans ht'
      exact hstate
  · obtain ⟨t', ht', hstate, -⟩ := h.response_step hok
    cases ht.symm.trans ht'
    exact hstate
  · exact absurd (List.mem_of_head? hfail) hc
  · exact absurd (List.mem_of_head? hreset) hr

/-- What every run of the sequence from `s` keeps: no reset and no cipher failure come, and the sequence has come to the state. -/
structure FrameRun (f : List Byte) (s u : State) : Prop where
  noReset : NoReset u
  noCipherErr : NoCipherErr u
  state : FrameState f s u

theorem FrameRun.of_step {f : List Byte} {s u t : State} (h : FrameRun f s u) (ht : step u = .next t) : FrameRun f s t :=
  ⟨step_noReset ht h.noReset, step_noCipherErr ht h.noCipherErr, h.state.of_step h.noReset h.noCipherErr ht⟩

/-- Settles O54: every step of the two agents goes on with the sequence, which used up has read every block and closed the frame. -/
theorem frameSequenceIsDecrypt : Obligations.FrameSequenceIsDecrypt := by
  intro f s t n hidle hp hr hc hrun ht
  have hstart : FrameRun f s s := ⟨hr, hc, .begin hidle hp⟩
  obtain ⟨-, -, herr, hchk, l, hreads, hprog⟩ := run_keeps (fun _ _ => FrameRun.of_step) n s t hstart hrun
  rw [ht] at hprog
  obtain ⟨rfl, hend⟩ := hprog.of_done
  rw [frameReads_eq_decryptBlocks] at hreads
  exact ⟨herr, hchk, hend.key, hreads, hend.blkcnt, hend.drop, hend.dactive, hend.ifill, hend.ovalid, hend.idle⟩

/-! ## An order that completes -/

/-- A response before each of `n` host moves. -/
def answeringMoves : Nat → List Move
  | 0 => []
  | n + 1 => .cipherOk :: .host :: answeringMoves n

/-- There are no moves in it but those of the two agents. -/
theorem mem_answeringMoves {m : Move} : ∀ {n : Nat}, m ∈ answeringMoves n → m = .host ∨ m = .cipherOk
  | n + 1, h => by
    simp only [answeringMoves, List.mem_cons] at h
    obtain rfl | rfl | h := h
    · exact .inr rfl
    · exact .inl rfl
    · exact mem_answeringMoves h

/-- With a response before each host move, no host move finds BUSY = 1, so each uses a statement up. -/
theorem FrameState.completes {f : List Byte} {s : State} (n : Nat) {u : State} (h : FrameState f s u)
    (hlen : u.program.length = n) (hs : u.sched = answeringMoves n) :
    ∃ t : State, core.run (2 * n) u = .next t ∧ t.program = [] := by
  induction n generalizing u with
  | zero => exact ⟨u, rfl, List.length_eq_zero_iff.1 hlen⟩
  | succ n ih =>
    obtain ⟨v, hv, hstate, hprog, hidle⟩ := h.response_step (by rw [hs]; rfl)
    have hvs : v.sched = .host :: answeringMoves n := by rw [step_sched hv, hs]; rfl
    have hvlen : v.program.length = n + 1 := by rw [hprog, hlen]
    obtain ⟨w, hw, hstate', hprog'⟩ := hstate.host_step (.inr (by rw [hvs]; rfl)) (by simp [← List.length_pos_iff, hvlen])
    have hwlen : w.program.length = n := by rw [hprog' hidle, List.length_tail, hvlen]; rfl
    obtain ⟨t, hrun, ht⟩ := ih hstate' hwlen (by rw [step_sched hw, hvs]; rfl)
    refine ⟨t, ?_, ht⟩
    calc core.run (2 * n + 2) u
        _ = core.run (2 * n + 1) v := run_succ_of_step hv _
        _ = core.run (2 * n) w := run_succ_of_step hw _
        _ = .next t := hrun

/-- Settles O55: a response before each host move uses the sequence up. -/
theorem frameSequenceCompletes : Obligations.FrameSequenceCompletes := by
  intro f s hidle hp
  have hstart : FrameState f { s with sched := answeringMoves s.program.length }
      { s with sched := answeringMoves s.program.length } := .begin hidle hp
  obtain ⟨t, hrun, ht⟩ := hstart.completes s.program.length rfl rfl
  exact ⟨answeringMoves s.program.length, _, t, fun _ => mem_answeringMoves, hrun, ht⟩

end Sys2Proof.Machine
end

section
/-! The document's decrypt (41_decrypt.md R110, 95_test_vectors.md section 1): its length, and that it gives back the blocks a frame was
encrypted from. -/

namespace Sys2Proof.Machine

/-- decrypt gives 16 bytes a whole chunk (R110). -/
theorem length_decrypt (f : List Byte) (key : Block) : (decrypt f key).length = 16 * (f.length / 16) := by
  simp [decrypt, decryptBlocks, Config.blockBytes, List.length_flatMap, Function.comp_def, Nat.mul_comm]

/-- Below 16 bytes there is no whole chunk (R110). -/
theorem decryptBlocks_of_short {f : List Byte} (h : f.length < 16) (key : Block) : decryptBlocks f key = [] := by
  simp [decryptBlocks, Config.blockBytes, h]

/-- The first chunk of a frame that begins with a block is that block (R110). -/
theorem chunk_zero_append (b : Block) (f : List Byte) : chunk (b.toList ++ f) 0 = b := by
  refine Vector.ext fun i hi => ?_
  rw [getElem_chunk, List.getD_append _ _ _ _ (by simp; omega), List.getD_eq_getElem _ _ (by simp; omega)]
  simp

/-- The chunks after it are those of the rest (R110). -/
theorem chunk_succ_append (b : Block) (f : List Byte) (j : Nat) : chunk (b.toList ++ f) (j + 1) = chunk f j := by
  refine Vector.ext fun i hi => ?_
  rw [getElem_chunk, getElem_chunk, List.getD_append_right _ _ _ _ (by simp; omega)]
  congr 1
  simp
  omega

/-- decrypt goes block by block (R110). -/
theorem decryptBlocks_cons (b : Block) (f : List Byte) (key : Block) :
    decryptBlocks (b.toList ++ f) key = Config.decryptBlock key b :: decryptBlocks f key := by
  have hlen : (b.toList ++ f).length / Config.blockBytes = f.length / 16 + 1 := by
    simp [Config.blockBytes]
  rw [decryptBlocks, hlen, List.range_succ_eq_map, List.map_cons, List.map_map, chunk_zero_append]
  simp only [Function.comp_def, Nat.succ_eq_add_one, chunk_succ_append]
  rfl

/-- decrypt of encrypted blocks and a tail is the blocks: the tail is dropped, and each block is decrypted back (R13, R110). -/
theorem decryptBlocks_encrypted (bs : List Block) {tail : List Byte} (htail : tail.length < 16) (key : Block) :
    decryptBlocks ((bs.flatMap fun b => (Config.encryptBlock key b).toList) ++ tail) key = bs := by
  induction bs with
  | nil => exact decryptBlocks_of_short htail key
  | cons b bs ih =>
    rw [List.flatMap_cons, List.append_assoc, decryptBlocks_cons, ih, Config.decryptBlock_encryptBlock]

/-- Settles O56: decrypt's length is that of its blocks, and the blocks of an encrypted frame are the ones encrypted. -/
theorem decryptInvertsEncryptedFrames : Obligations.DecryptInvertsEncryptedFrames :=
  ⟨length_decrypt, fun bs _ key htail => congrArg (·.flatMap Vector.toList) (decryptBlocks_encrypted bs htail key)⟩

end Sys2Proof.Machine
end

section
/-! The register images as bit fields (10_state.md R44 to R49), what the host reads after reset (R212), and the window's place on the
bus (20_memory.md R50, R60). -/

namespace Sys2Proof.Machine

/-! ## Register fields -/

/-- STATUS.BUSY to STATUS.VSHORT are bits 0 to 6 (R44). -/
theorem statusWord_flags (d : Decryptor) (c : Checker) (e : ErrRecord) :
    (statusWord d c e).getLsbD 0 = d.busy ∧ (statusWord d c e).getLsbD 1 = d.ovalid ∧
    (statusWord d c e).getLsbD 2 = d.dactive ∧ (statusWord d c e).getLsbD 3 = c.vactive ∧
    (statusWord d c e).getLsbD 4 = c.vdone ∧ (statusWord d c e).getLsbD 5 = c.vok ∧
    (statusWord d c e).getLsbD 6 = c.vshort := by
  simp only [statusWord, BitVec.getLsbD_append]
  simp

/-- STATUS.ERR is bit 7 (R44). -/
theorem statusWord_err (d : Decryptor) (c : Checker) (e : ErrRecord) :
    (statusWord d c e).getLsbD 7 = true ↔ e.code ≠ 0 := by
  simp only [statusWord, BitVec.getLsbD_append]
  simp [errFlag]

/-- STATUS holds IFILL and VCOUNT above the flags, and zeros above them (R44). -/
theorem statusWord_counts (d : Decryptor) (c : Checker) (e : ErrRecord) :
    (statusWord d c e).extractLsb' 8 4 = d.ifill ∧ (statusWord d c e).extractLsb' 12 5 = c.vcount ∧
    (statusWord d c e).extractLsb' 17 15 = 0 := by
  simp (disch := omega) only [statusWord, BitVec.extractLsb'_append_eq_of_add_le, BitVec.extractLsb'_append_eq_of_le]
  simp

/-- CRC stands in the low half of its register, under zeros (R45). -/
theorem crcWord_fields (c : Checker) : (crcWord c).extractLsb' 0 16 = c.crc ∧ (crcWord c).extractLsb' 16 16 = 0 := by
  rw [crcWord, zext32]
  constructor
  · rw [BitVec.extractLsb'_setWidth_of_le (by omega)]
    exact BitVec.extractLsb'_eq_self
  · refine BitVec.eq_of_getLsbD_eq fun i _ => ?_
    simp

/-- BLKCNT stands under DROP, and zeros above them (R47). -/
theorem dcountWord_fields (d : Decryptor) :
    (dcountWord d).extractLsb' 0 16 = d.blkcnt ∧ (dcountWord d).extractLsb' 16 4 = d.drop ∧
    (dcountWord d).extractLsb' 20 12 = 0 := by
  simp (disch := omega) only [dcountWord, BitVec.extractLsb'_append_eq_of_add_le, BitVec.extractLsb'_append_eq_of_le]
  simp

/-- ERRCODE, ERROPC and ERRMULTI stand in ERR with zeros between them (R48). -/
theorem errWord_fields (e : ErrRecord) :
    (errWord e).extractLsb' 0 4 = e.code ∧ (errWord e).extractLsb' 4 4 = 0 ∧ (errWord e).extractLsb' 8 8 = e.opc ∧
    (errWord e).extractLsb' 16 15 = 0 ∧ (errWord e).getLsbD 31 = e.multi := by
  simp (disch := omega) only [errWord, BitVec.extractLsb'_append_eq_of_add_le, BitVec.extractLsb'_append_eq_of_le,
    BitVec.getLsbD_append]
  simp

/-- Settles O34: the fields of the five images, register by register. -/
theorem registerFieldsAtTheirBits : Obligations.RegisterFieldsAtTheirBits := by
  intro s
  obtain ⟨hbusy, hovalid, hdactive, hvactive, hvdone, hvok, hvshort⟩ := statusWord_flags s.dec s.chk s.err
  obtain ⟨hifill, hvcount, hzeros⟩ := statusWord_counts s.dec s.chk s.err
  obtain ⟨hcrc, hcrcZeros⟩ := crcWord_fields s.chk
  obtain ⟨hblkcnt, hdrop, hdcountZeros⟩ := dcountWord_fields s.dec
  exact ⟨hbusy, hovalid, hdactive, hvactive, hvdone, hvok, hvshort, statusWord_err s.dec s.chk s.err, hifill, hvcount, hzeros,
    hcrc, hcrcZeros, vresult_low s, vresult_high s, hblkcnt, hdrop, hdcountZeros, errWord_fields s.err⟩

/-! ## KEY and OUT -/

/-- Settles O35: KEYn and OUTn are register words of their arrays, whose bytes are packed little-endian. -/
theorem keyAndOutBytesAreLittleEndian : Obligations.KeyAndOutBytesAreLittleEndian := by
  refine ⟨fun s n k hn hk => ⟨?_, ?_⟩, fun s hkey => ⟨?_, ?_⟩⟩
  · rw [readOffset_key s n hn]
    exact byteOf_blockWord s.dec.key n k hn hk
  · rw [readOffset_out s n hn]
    exact byteOf_blockWord s.dec.obuf n k hn hk
  · rw [show (0x20 : Offset) = BitVec.ofNat 6 (0x20 + 4 * 0) from rfl, readOffset_key s 0 (by omega), hkey]
    decide
  · rw [show (0x2C : Offset) = BitVec.ofNat 6 (0x20 + 4 * 3) from rfl, readOffset_key s 3 (by omega), hkey]
    decide

/-! ## After reset -/

/-- Settles O42: the reset state is fixed, so each of the 64 offsets is read in it. -/
theorem resetValuesAsTheHostReads : Obligations.ResetValuesAsTheHostReads := by
  unfold Obligations.ResetValuesAsTheHostReads
  decide

/-! ## The window on the bus -/

/-- An address in the window is its offset (R50). -/
theorem Target.ofAddr_of_inside (base : Nat) {off : Nat} (h : off < 64) :
    Target.ofAddr base (base + off) = .window (BitVec.ofNat 6 off) := by
  rw [Target.ofAddr, if_pos (by omega), Nat.add_sub_cancel_left]

/-- An address off the window is not decoded (R60). -/
theorem Target.ofAddr_of_outside {base addr : Nat} (h : addr < base ∨ base + 64 ≤ addr) :
    Target.ofAddr base addr = .outside addr := if_neg (by omega)

/-- Settles O40: the window's addresses are decoded to their offsets, and an access elsewhere leaves the state as it is. -/
theorem outsideWindowNotDecoded : Obligations.OutsideWindowNotDecoded := by
  refine ⟨Nat.mul_mod_right 4 Config.baseWord, fun base addr size v s => ⟨fun off => Target.ofAddr_of_inside base, fun h => ?_⟩⟩
  rw [Target.ofAddr_of_outside h]
  exact ⟨rfl, rfl⟩

end Sys2Proof.Machine
end
